-- ==== Sys2Proof/Word.lean ====
section
/-! DEFINITION. The fixed-width bit vectors of UUIDC (00_scope.md R8, R9; 30_encoding.md R60, R61).
Bit 0 of every value is its least significant bit (R9). -/

namespace Sys2Proof

/-- `high` or `low`: a 64-bit pattern, never interpreted as a signed number by the block (R10, R71). -/
abbrev Word := BitVec 64

/-- A cell of the byte buffer (R8 `BYTE_W`), and an 8-bit field of a frame. -/
abbrev Byte := BitVec 8

/-- A text cell, one character (R8 `CHAR_W`, R70). -/
abbrev Cell := BitVec 8

/-- The identifier `V = hi ‖ lo` (00_scope.md glossary, R23). -/
abbrev Ident := BitVec 128

/-- The 26 text cells of a frame as one field (R60, R61: 208 bits). -/
abbrev TextBits := BitVec 208

/-- `REQ`, one fixed-length bit vector of 352 bits (R60). -/
abbrev RequestFrame := BitVec 352

/-- `RSP`, one fixed-length bit vector of 360 bits (R61). -/
abbrev ResponseFrame := BitVec 360

end Sys2Proof
end

