-- ==== Sys2Proof/Config.lean ====
section
/-! DEFINITION. What is fixed for the block: the parameters of 00_scope.md R8, the two codec
configurations' numbers (10_state.md R21), the length constants behind `C64LEN` and `C32LEN` (R22), and
the parameters the spec leaves open (92_eei_decisions.md, last table). The alphabet tables themselves
stand in Machine/Alphabet.lean. None of this can be written by an operation or by the host (R51). -/

namespace Sys2Proof

/-- The form `f`: which of the two codec configurations, `CFG64` or `CFG32`, is meant (R21).
There is no third one (93_implementation_defined.md U6). -/
inductive Form where
  | form64
  | form32
  deriving DecidableEq, Repr

/-- Digit width, `W`: bits carried by one character (R8 `DIGIT64_W`, `DIGIT32_W`; R21). -/
@[reducible] def Form.width : Form → Nat
  | .form64 => 6
  | .form32 => 5

/-- Text length, `N = LEN(f)` (R8 `COMPACT64_LEN`, `COMPACT32_LEN`; R15, R21). -/
@[reducible] def Form.len : Form → Nat
  | .form64 => 22
  | .form32 => 26

/-- Fill bits, `FILL`: the zero bits that complete the last digit (R8 `FILL64`, `FILL32`; R116). -/
@[reducible] def Form.fill : Form → Nat
  | .form64 => 4
  | .form32 => 2

/-- Number of symbols of the alphabet (R8 `RADIX64`, `RADIX32`). -/
@[reducible] def Form.radix : Form → Nat
  | .form64 => 64
  | .form32 => 32

/-- Number of padding characters a standard encoder appends for 16 bytes (R8 `NPAD64`, `NPAD32`).
For form 32 the number is not observable; where one is needed it is 6 (90_conflicts.md C1). -/
@[reducible] def Form.npad : Form → Nat
  | .form64 => 2
  | .form32 => 6

/-- `LEN(f)` as the 8-bit value the frames carry. -/
@[reducible] def Form.lenByte : Form → Byte
  | .form64 => 22#8
  | .form32 => 26#8

/-- The two read-only constant outputs, the only software-visible registers (R22). -/
inductive ConstReg where
  | c64len
  | c32len
  deriving DecidableEq, Repr

namespace Config

/-- `BUF_LEN`: number of cells of the byte buffer (R8, R40). -/
@[reducible] def bufLen : Nat := 16

/-- `TEXT_CELLS`: text cells in a request and in a response (R8). -/
@[reducible] def textCells : Nat := 26

/-- `PAD`, the padding character `=` (R80). -/
def pad : Cell := 0x3D#8

/-- `STRICT_FILL` (R8, R127): whether non-zero fill bits in the last character are rejected on decode.
This hardware takes false; the codec below is defined for both values. -/
def strictFill : Bool := false

/-- OPEN parameter: `QDEPTH - 1`, by how much the depth of the in-flight queue exceeds its minimum.
No body: nothing can be proved about it (R8 `QDEPTH`, R28, 92_eei_decisions.md D18; log entry 2). -/
opaque queueSlack : Nat

/-- `QDEPTH`: how many requests may be in flight, OPEN, at least 1 (R8, R28). -/
def qdepth : Nat := queueSlack + 1

/-- OPEN: which texts the host's UUID parser accepts. "The parser's exact acceptance (case, length
checks) is outside this spec" (R93; log entry 7). -/
opaque uuidParserAccepts : List Char → Bool

/-- OPEN: what the host's UUID parser makes of a text it accepts that is not of the canonical shape
(R93; log entry 7). -/
opaque uuidParserOther : List Char → Word × Word

end Config

end Sys2Proof
end

