-- ==== Sys2Proof/Machine/Alphabet.lean ====
section
/-! DEFINITION. The alphabets `ALPHA64`, `ALPHA32` and their inverses `INV64`, `INV32` (30_encoding.md R76 to
R79): the constant tables of the two codec configurations `CFG64` and `CFG32` (10_state.md R21). -/

namespace Sys2Proof.Machine

open Sys2Proof

/-- `ALPHA64`, the URL-safe base-64 alphabet: the table of R76, its four columns one after another. -/
def alpha64Table : List Cell :=
  [0x41#8, 0x42#8, 0x43#8, 0x44#8, 0x45#8, 0x46#8, 0x47#8, 0x48#8,
   0x49#8, 0x4A#8, 0x4B#8, 0x4C#8, 0x4D#8, 0x4E#8, 0x4F#8, 0x50#8] ++
  [0x51#8, 0x52#8, 0x53#8, 0x54#8, 0x55#8, 0x56#8, 0x57#8, 0x58#8,
   0x59#8, 0x5A#8, 0x61#8, 0x62#8, 0x63#8, 0x64#8, 0x65#8, 0x66#8] ++
  [0x67#8, 0x68#8, 0x69#8, 0x6A#8, 0x6B#8, 0x6C#8, 0x6D#8, 0x6E#8,
   0x6F#8, 0x70#8, 0x71#8, 0x72#8, 0x73#8, 0x74#8, 0x75#8, 0x76#8] ++
  [0x77#8, 0x78#8, 0x79#8, 0x7A#8, 0x30#8, 0x31#8, 0x32#8, 0x33#8,
   0x34#8, 0x35#8, 0x36#8, 0x37#8, 0x38#8, 0x39#8, 0x2D#8, 0x5F#8]

/-- `ALPHA32`, the base-32 alphabet: the table of R78, its four columns one after another. -/
def alpha32Table : List Cell :=
  [0x41#8, 0x42#8, 0x43#8, 0x44#8, 0x45#8, 0x46#8, 0x47#8, 0x48#8,
   0x49#8, 0x4A#8, 0x4B#8, 0x4C#8, 0x4D#8, 0x4E#8, 0x4F#8, 0x50#8] ++
  [0x51#8, 0x52#8, 0x53#8, 0x54#8, 0x55#8, 0x56#8, 0x57#8, 0x58#8,
   0x59#8, 0x5A#8, 0x32#8, 0x33#8, 0x34#8, 0x35#8, 0x36#8, 0x37#8]

/-- `ALPHA64[v]` (R76). -/
def alpha64 (v : BitVec 6) : Cell := alpha64Table.getD v.toNat 0x00#8

/-- `ALPHA32[v]` (R78). -/
def alpha32 (v : BitVec 5) : Cell := alpha32Table.getD v.toNat 0x00#8

/-- `INV64(c)`; `none` is "invalid" (R77). -/
def inv64 (c : Cell) : Option (BitVec 6) :=
  if 0x41 ≤ c.toNat ∧ c.toNat ≤ 0x5A then some (BitVec.ofNat 6 (c.toNat - 0x41))
  else if 0x61 ≤ c.toNat ∧ c.toNat ≤ 0x7A then some (BitVec.ofNat 6 (c.toNat - 0x61 + 26))
  else if 0x30 ≤ c.toNat ∧ c.toNat ≤ 0x39 then some (BitVec.ofNat 6 (c.toNat - 0x30 + 52))
  else if c.toNat = 0x2D then some 62#6
  else if c.toNat = 0x5F then some 63#6
  else none

/-- `INV32(c)`; `none` is "invalid" (R79). Lower case is outside the alphabet. -/
def inv32 (c : Cell) : Option (BitVec 5) :=
  if 0x41 ≤ c.toNat ∧ c.toNat ≤ 0x5A then some (BitVec.ofNat 5 (c.toNat - 0x41))
  else if 0x32 ≤ c.toNat ∧ c.toNat ≤ 0x37 then some (BitVec.ofNat 5 (c.toNat - 0x32 + 26))
  else none

/-- `ALPHAf[v]` (R117). -/
def alpha : (f : Form) → BitVec f.width → Cell
  | .form64, v => alpha64 v
  | .form32, v => alpha32 v

/-- `INVf(c)` (R124). -/
def inv : (f : Form) → Cell → Option (BitVec f.width)
  | .form64, c => inv64 c
  | .form32, c => inv32 c

end Sys2Proof.Machine
end

