-- ==== Sys2Proof/Machine/Bits.lean ====
section
/-! DEFINITION. The bit-field helpers: the whole arithmetic of the block is slicing, concatenation, left
shift, bitwise OR and zero extension (40_pack_unpack.md R105). A value is cut into equal chunks, or put
together from them, most significant chunk first; bytes, digits and text cells all go through these two. -/

namespace Sys2Proof.Machine

/-- `n` chunks of `c` bits from the low `c*n` bits of `v`, most significant first: chunk `k` is
`v[c*(n-k)-1 : c*(n-1-k)]` (the slice of R116 and, with `c = 8`, of R41). -/
def splitChunks {w : Nat} (c n : Nat) (v : BitVec w) : List (BitVec c) :=
  (List.range n).map fun k => v.extractLsb' (c * (n - 1 - k)) c

/-- The chunks side by side in `w` bits, the first the most significant:
`acc <- (acc << c) | zext(chunk)` (the loop of R102; every chunk is unsigned, R103). -/
def joinChunks {c : Nat} (w : Nat) (ds : List (BitVec c)) : BitVec w :=
  ds.foldl (fun acc d => (acc <<< c) ||| d.setWidth w) 0#w

/-- 26 text cells as the 208-bit text field: cell `k` is bits `[8*k+7 : 8*k]` (R60, R61). -/
def textToBits (text : List Cell) : TextBits := joinChunks 208 text.reverse

/-- Cell `k` of a text field is bits `[8*k+7 : 8*k]` (R60, R61). -/
def bitsToText (t : TextBits) : List Cell :=
  (List.range 26).map fun k => t.extractLsb' (8 * k) 8

end Sys2Proof.Machine
end

