-- ==== Sys2Proof/Syntax.lean ====
section
/-! DEFINITION. The instructions: the five operations of UUIDC, one constructor per row of
spec/opcode_table.json (R2, R63). The operands of a constructor are the request fields that its
operation reads (R62); a field no constructor holds has no effect on the response. -/

namespace Sys2Proof

/-- An operation with the request fields it reads. `text` is the frame's whole text field, its 26 cells,
first character first (R60); which of them are read depends on `tlen` (R62). -/
inductive Instr where
  /-- `CMP64`, `compact64(high, low)` (R140). -/
  | cmp64 (hi lo : Word)
  /-- `CMP32`, `compact32(high, low)` (R141). -/
  | cmp32 (hi lo : Word)
  /-- `EXP`, `expand(text)`, dispatching on the length (R152). -/
  | exp (tlen : Byte) (text : List Cell)
  /-- `EXP64`, `expand64(text)` (R150). -/
  | exp64 (tlen : Byte) (text : List Cell)
  /-- `EXP32`, `expand32(text)` (R151). -/
  | exp32 (tlen : Byte) (text : List Cell)
  deriving DecidableEq, Repr

end Sys2Proof
end

