-- ==== Sys2Proof/WellFormed.lean ====
section
/-! DEFINITION. Which terms of `Instr` stand for a request. Every value of `tlen`, `hi`, `lo` and of every
text cell is legal (R66); the one thing to check is that a text field has exactly 26 cells (R60). -/

namespace Sys2Proof

/-- The text field of a frame has `TEXT_CELLS` cells (R60). -/
def textFieldOk (text : List Cell) : Bool := text.length == Config.textCells

/-- The instruction can be written in a request frame. -/
def Instr.wellFormed : Instr → Bool
  | .cmp64 _ _ => true
  | .cmp32 _ _ => true
  | .exp _ text => textFieldOk text
  | .exp64 _ text => textFieldOk text
  | .exp32 _ text => textFieldOk text

end Sys2Proof
end

