-- ==== Sys2Proof/Decode.lean ====
section
/-! DEFINITION. The request frame's fields (30_encoding.md R60), the opcode map (R63) and the decoder, total
on all 2^352 frames; after it the encoder, from the same tables. An opcode that is no operation is rejected
by name (R66); nothing else is ever rejected. -/

namespace Sys2Proof

open Sys2Proof.Machine

/-- `REQ.op`, bits [7:0] (R60). -/
def reqOp (q : RequestFrame) : Byte := q.extractLsb' 0 8

/-- `REQ.tlen`, bits [15:8] (R60). -/
def reqTlen (q : RequestFrame) : Byte := q.extractLsb' 8 8

/-- `REQ.lo`, bits [79:16] (R60). -/
def reqLo (q : RequestFrame) : Word := q.extractLsb' 16 64

/-- `REQ.hi`, bits [143:80] (R60). -/
def reqHi (q : RequestFrame) : Word := q.extractLsb' 80 64

/-- `REQ.text`, bits [351:144], as 26 cells: cell `k` is `REQ[151+8*k : 144+8*k]` (R60). -/
def reqText (q : RequestFrame) : List Cell := bitsToText (q.extractLsb' 144 208)

/-- The opcode numbers (R63). -/
def opCmp64 : Byte := 0x01#8
def opCmp32 : Byte := 0x02#8
def opExp : Byte := 0x04#8
def opExp64 : Byte := 0x05#8
def opExp32 : Byte := 0x06#8

/-- What the decoder answers: an instruction, or the rejection of an opcode that is none of the five
(R66: 251 of the 256 values). -/
inductive Decoded where
  | instr (i : Instr)
  | illegalOp (op : Byte)
  deriving DecidableEq, Repr

/-- The decoder. The opcode is the whole 8-bit `op` field (R63); the fields an operation does not read
are not looked at (R62). -/
def decode (q : RequestFrame) : Decoded :=
  if reqOp q = opCmp64 then .instr (.cmp64 (reqHi q) (reqLo q))
  else if reqOp q = opCmp32 then .instr (.cmp32 (reqHi q) (reqLo q))
  else if reqOp q = opExp then .instr (.exp (reqTlen q) (reqText q))
  else if reqOp q = opExp64 then .instr (.exp64 (reqTlen q) (reqText q))
  else if reqOp q = opExp32 then .instr (.exp32 (reqTlen q) (reqText q))
  else .illegalOp (reqOp q)

/-- The table's numbering of bits is the frame's own (bit 0 of the first word is `REQ[0]`); the bits of the
frame above `nbits` are zero. A word of more than 352 bits is no request (R60). -/
def decodeTableWord (nbits w : Nat) : Option Instr :=
  if nbits ≤ 352 then
    match decode (BitVec.ofNat 352 (w % 2 ^ nbits)) with
    | .instr i => some i
    | .illegalOp _ => none
  else none

/-- A request frame from its five fields (R60). -/
def requestFrame (op tlen : Byte) (hi lo : Word) (text : List Cell) : RequestFrame :=
  textToBits text ++ hi ++ lo ++ tlen ++ op

/-- The 26 cells 0x00 of an unused text field (R68, R91). -/
def blankText : List Cell := List.replicate Config.textCells 0x00#8

/-- The opcode of an operation (R63). -/
def Instr.opcode : Instr → Byte
  | .cmp64 _ _ => opCmp64
  | .cmp32 _ _ => opCmp32
  | .exp _ _ => opExp
  | .exp64 _ _ => opExp64
  | .exp32 _ _ => opExp32

/-- The request frame of an instruction, every unread field 0 (R91). -/
def encode : Instr → RequestFrame
  | .cmp64 hi lo => requestFrame opCmp64 0#8 hi lo blankText
  | .cmp32 hi lo => requestFrame opCmp32 0#8 hi lo blankText
  | .exp tlen text => requestFrame opExp tlen 0#64 0#64 text
  | .exp64 tlen text => requestFrame opExp64 tlen 0#64 0#64 text
  | .exp32 tlen text => requestFrame opExp32 tlen 0#64 0#64 text

end Sys2Proof
end

