-- ==== Sys2Proof/Machine/State.lean ====
section
/-! DEFINITION. The machine's state, the response record, the error classes, the value after reset, and the
reasons a step could stop. The block has no register file, program counter, flags, mode or memory
(10_state.md R20, R23 to R27, R30); what is dynamic is the transport around the function `F`: the in-flight
queue `Q` (R28) and the responses standing on the response port (70_reset_and_hazards.md R200, R204). -/

namespace Sys2Proof.Machine

open Sys2Proof

/-- The outcome codes a response can carry (R65). No other value is ever produced. -/
inductive Status where
  | ok
  | lengthError
  | formatError
  | decodeError
  | illegalOp
  deriving DecidableEq, Repr

/-- The response record, the fields of `RSP` (R61). `text` has 26 cells in every response the block gives. -/
structure Response where
  status : Status
  olen : Byte
  elen : Byte
  lo : Word
  hi : Word
  text : List Cell
  deriving DecidableEq, Repr

/-- The error classes with their `info` (R14, R170, R171): only `LengthError` carries one, the length `N`
that the operation requires. -/
inductive ErrorClass where
  | lengthError (n : Byte)
  | formatError
  | decodeError
  | illegalOp
  deriving DecidableEq, Repr

/-- The state of the block. No field is read by an operation (R20): an operation's response is computed from
its request alone. -/
structure State where
  /-- `Q`: the request frames accepted and not yet answered, oldest first (R28). -/
  queue : List RequestFrame
  /-- The response port: the responses given and not yet taken by the host, oldest first (R200 "no response is
  pending", R204). Written by every operation, read by none. -/
  responses : List Response
  deriving DecidableEq, Repr

/-- Right after reset: the in-flight queue is empty and no response is pending (R29, R200). -/
def State.reset : State := { queue := [], responses := [] }

/-- Why the machine stops with a fault: never. The block has no fault in the host's sense: every error is an
ordinary response (R172, R176) and every accepted request is answered (R201), so the type is empty.
Nobody raises it; an empty type is exact, hence safe. -/
inductive Fault where
  deriving DecidableEq, Repr

/-- Why an instruction has no meaning here. -/
inductive Refusal where
  /-- Kept for an instruction of the table without a meaning; no arm of `exec` raises it, since all five
  operations have theirs. Safe: a stop proves nothing. -/
  | notModelled (mnemonic : String)
  deriving DecidableEq, Repr

end Sys2Proof.Machine
end

