-- ==== Sys2Proof/Machine/Flags.lean ====
section
/-! DEFINITION. The block has no flags (10_state.md R25); the one condition an operation reports is the
`status` field of its own response. This file holds the status codes (R65, R171) and the response frame
(R61) that carries them. -/

namespace Sys2Proof.Machine

open Sys2Proof

/-- The 8-bit code of a status (R65, R171). -/
def Status.code : Status → Byte
  | .ok => 0x00#8
  | .lengthError => 0x01#8
  | .formatError => 0x02#8
  | .decodeError => 0x03#8
  | .illegalOp => 0x04#8

/-- The status of a code; 0x05 to 0xFF are never produced and have no reading (R65, U7). -/
def Status.ofCode? (c : Byte) : Option Status :=
  if c = 0x00#8 then some .ok
  else if c = 0x01#8 then some .lengthError
  else if c = 0x02#8 then some .formatError
  else if c = 0x03#8 then some .decodeError
  else if c = 0x04#8 then some .illegalOp
  else none

/-- The response as one 360-bit frame: `status` [7:0], `olen` [15:8], `elen` [23:16], `lo` [87:24],
`hi` [151:88], `text` [359:152] (R61). -/
def Response.toFrame (r : Response) : ResponseFrame :=
  textToBits r.text ++ r.hi ++ r.lo ++ r.elen ++ r.olen ++ r.status.code

/-- Reading a response frame back, as the host does; a `status` the block never produces has no reading
(R61, R65, U7). -/
def Response.ofFrame? (w : ResponseFrame) : Option Response :=
  match Status.ofCode? (w.extractLsb' 0 8) with
  | some st =>
    some { status := st, olen := w.extractLsb' 8 8, elen := w.extractLsb' 16 8,
           lo := w.extractLsb' 24 64, hi := w.extractLsb' 88 64,
           text := bitsToText (w.extractLsb' 152 208) }
  | none => none

end Sys2Proof.Machine
end

