-- ==== Sys2Proof/Machine/Ops.lean ====
section
/-! DEFINITION. The operations over the state and over the byte buffer: giving a response (30_encoding.md
R68), taking an error, the block's only kind of exception (00_scope.md R14, 60_exceptions.md R176), reading a
constant output (10_state.md R22), and the buffer accesses `MemWrite` and `MemRead` (00_scope.md R13). -/

namespace Sys2Proof.Machine

open Sys2Proof

/-- The response before an operation's own writes: `OK` and every data field zero (R68). -/
def Response.initial : Response :=
  { status := .ok, olen := 0#8, elen := 0#8, lo := 0#64, hi := 0#64, text := blankText }

/-- The response of the request being executed leaves on the response port, behind the earlier ones (R204). -/
def State.give (r : Response) (s : State) : State :=
  { s with responses := s.responses ++ [r] }

/-- The status of an error class (R171). -/
def ErrorClass.status : ErrorClass → Status
  | .lengthError _ => .lengthError
  | .formatError => .formatError
  | .decodeError => .decodeError
  | .illegalOp => .illegalOp

/-- The `info` recorded in `elen`: the required length for `LengthError`, 0 otherwise (R176). -/
def ErrorClass.info : ErrorClass → Byte
  | .lengthError n => n
  | .formatError => 0#8
  | .decodeError => 0#8
  | .illegalOp => 0#8

/-- The error response of a class: its `status` and `elen`, all data fields zero (R176). -/
def errorResponse (e : ErrorClass) : Response :=
  { Response.initial with status := e.status, elen := e.info }

/-- `raise <Class>(info)`, taking an exception: the operation ends with the error response. Nothing is saved
anywhere else: no cause register, no saved address, no mode, mask, stack or vector (R14, R176). There is no
return operation beside it: an error is not sticky and needs no acknowledgement (R178). -/
def State.raise (e : ErrorClass) (s : State) : State := s.give (errorResponse e)

/-- The value of a constant output: hardwired, the same in every state (R22). -/
def State.constOut (r : ConstReg) (_s : State) : Byte :=
  match r with
  | .c64len => Form.form64.lenByte
  | .c32len => Form.form32.lenByte

/-- `MemWrite(a, n, v)`: the `n` bytes of `v` into `B[a..a+n-1]`, most significant byte first (R13). -/
def memWrite (B : List Byte) (a n : Nat) (v : BitVec (8 * n)) : List Byte :=
  B.take a ++ splitChunks 8 n v ++ B.drop (a + n)

/-- `MemRead(a, n)`: `B[a] ‖ B[a+1] ‖ ... ‖ B[a+n-1]`, an unsigned value (R13). -/
def memRead (B : List Byte) (a n : Nat) : BitVec (8 * n) :=
  joinChunks (8 * n) ((B.drop a).take n)

/-- The byte buffer as it is created for an operation. All 16 cells are written before any is read, so the
zeros cannot be observed (R26, R100). -/
def freshBuffer : List Byte := List.replicate Config.bufLen 0x00#8

/-- `PACK(hi, lo)`: `MemWrite(0, 8, hi); MemWrite(8, 8, lo)` (R100). -/
def pack (hi lo : Word) : List Byte :=
  memWrite (memWrite freshBuffer 0 8 hi) 8 8 lo

/-- `UNPACK(B)`: `hi <- MemRead(0, 8); lo <- MemRead(8, 8)`, every byte unsigned (R102, R103). -/
def unpack (B : List Byte) : Word × Word :=
  (memRead B 0 8, memRead B 8 8)

end Sys2Proof.Machine
end

