-- ==== Sys2Proof/Machine/Codec.lean ====
section
/-! DEFINITION. The codec stage (41_codec.md): the contract of the external `ByteTextCodec` (R110 to R114) as a
type, and the built-in digit mapper the hardware takes (R115 to R130): `DIGITS`, `ENC`, the padded text,
`TRUNC` and `DEC`. -/

namespace Sys2Proof.Machine

open Sys2Proof

/-- What a decode answers: `BadChar`, or `Bytes(n, b)` with `n` the length of the list (R114, R124). -/
inductive DecResult where
  | badChar
  | bytes (b : List Byte)
  deriving DecidableEq, Repr

/-- A `ByteTextCodec` over one alphabet: encode with padding, and decode (R110, R114). -/
structure Codec where
  encode : List Byte → List Cell
  decode : List Cell → DecResult

/-- `DIGITS(f, B)`: the 128 bits of the buffer followed by `FILL` zeros, cut into `N` digits of `W` bits, most
significant first (R116). -/
def digits (f : Form) (B : List Byte) : List (BitVec f.width) :=
  splitChunks f.width f.len (joinChunks 128 B ++ 0#f.fill)

/-- `ENC(f, B)`: the unpadded text (R117). -/
def enc (f : Form) (B : List Byte) : List Cell := (digits f B).map (alpha f)

/-- The padded text `P` a standard encoder returns: the characters of `ENC` and then `NPAD` padding characters
(R111, R120). The block itself never builds it. -/
def paddedText (f : Form) (B : List Byte) : List Cell :=
  enc f B ++ List.replicate f.npad Config.pad

/-- `TRUNC(f, P)`: the first `LEN(f)` cells (R123). -/
def trunc (f : Form) (P : List Cell) : List Cell := P.take f.len

/-- The digits of a text, or `none` when some cell is outside the alphabet (the loop of R124). -/
def textDigits (f : Form) : List Cell → Option (List (BitVec f.width))
  | [] => some []
  | c :: cs =>
    match inv f c, textDigits f cs with
    | some d, some ds => some (d :: ds)
    | _, _ => none

/-- `S' = d[0] ‖ d[1] ‖ ... ‖ d[N-1]`, `W*N = 128 + FILL` bits (R124). -/
def joinDigits (f : Form) (ds : List (BitVec f.width)) : BitVec (128 + f.fill) :=
  joinChunks (128 + f.fill) ds

/-- `S <- S'[W*N-1 : FILL]` cut into the 16 bytes of the buffer (R124). -/
def digitBytes (f : Form) (ds : List (BitVec f.width)) : List Byte :=
  splitChunks 8 Config.bufLen ((joinDigits f ds).extractLsb' f.fill 128)

/-- The fill bits of a digit vector, `S'[FILL-1 : 0]` (R124, R127). -/
def fillBits (f : Form) (ds : List (BitVec f.width)) : BitVec f.fill :=
  (joinDigits f ds).extractLsb' 0 f.fill

/-- `DEC(f, T)` for both values of `STRICT_FILL` (R124, R127): with `strict` a text whose fill bits are not zero
is a `BadChar`, without it the fill bits are dropped without being looked at. -/
def decWith (strict : Bool) (f : Form) (T : List Cell) : DecResult :=
  match textDigits f T with
  | none => .badChar
  | some ds =>
    if strict && fillBits f ds != 0#f.fill then .badChar else .bytes (digitBytes f ds)

/-- `DEC(f, T)` of this hardware (R124, R127: `STRICT_FILL` = false). -/
def dec (f : Form) (T : List Cell) : DecResult := decWith Config.strictFill f T

/-- The built-in mapper seen as a `ByteTextCodec` (R115, R130). -/
def builtinCodec (f : Form) : Codec := { encode := paddedText f, decode := dec f }

/-- Canonical text of form `f`: `LEN(f)` cells, all in the alphabet, the low `FILL` bits of the last cell's
digit zero (R83). -/
def canonical (f : Form) (T : List Cell) : Bool :=
  T.length == f.len &&
  match textDigits f T with
  | none => false
  | some ds =>
    match ds.getLast? with
    | none => false
    | some d => d.extractLsb' 0 f.fill == 0#f.fill

/-- A digit with its low `FILL` bits cleared (R83, R127). -/
def clearFill (f : Form) (d : BitVec f.width) : BitVec f.width := (d >>> f.fill) <<< f.fill

/-- The text with the fill bits of its last character cleared: "the canonical text with those bits cleared"
(R127). A text with a cell outside the alphabet has none and is left as it is. -/
def canonicalize (f : Form) (T : List Cell) : List Cell :=
  match textDigits f T with
  | none => T
  | some ds => (ds.dropLast ++ (ds.getLast?.map (clearFill f)).toList).map (alpha f)

end Sys2Proof.Machine
end

