-- ==== Sys2Proof/Machine/Compact.lean ====
section
/-! DEFINITION. The compact operations (42_compact.md): the routine `COMPACT(f)` (R143) and its two instances,
`CMP64` (R140) and `CMP32` (R141). -/

namespace Sys2Proof.Machine

open Sys2Proof

/-- A successful compact response carrying the text `T` of form `f`: `olen` and the text cells, cells from
`olen` up 0x00, `hi`, `lo` and `elen` zero (R61, R68, R140, R141). -/
def compactResponse (f : Form) (T : List Cell) : Response :=
  { Response.initial with
    olen := f.lenByte
    text := T ++ List.replicate (Config.textCells - f.len) 0x00#8 }

/-- `COMPACT(f) = { B <- PACK(hi, lo); T <- ENC(f, B); olen <- LEN(f); text <- T }` (R143). -/
def compact (f : Form) (hi lo : Word) : Response :=
  compactResponse f (enc f (pack hi lo))

/-- The same through an external codec: `TRUNC(f, encode(PACK(hi, lo)))` (R111, R123). -/
def compactThrough (c : Codec) (f : Form) (hi lo : Word) : Response :=
  compactResponse f (trunc f (c.encode (pack hi lo)))

/-- `CMP64` (R140). -/
def execCmp64 (hi lo : Word) (s : State) : Host.Outcome State Fault Refusal :=
  .next (s.give (compact .form64 hi lo))

/-- `CMP32` (R141). -/
def execCmp32 (hi lo : Word) (s : State) : Host.Outcome State Fault Refusal :=
  .next (s.give (compact .form32 hi lo))

end Sys2Proof.Machine
end

