-- ==== Sys2Proof/Machine/Operands.lean ====
section
/-! DEFINITION. The operand forms. The block has three operands and no addressing mode (40_pack_unpack.md
R106): the words `hi` and `lo`, used as they stand (30_encoding.md R71); the length `tlen`, an unsigned count
(R69); and the text cells (R70). -/

namespace Sys2Proof.Machine

open Sys2Proof

/-- `REQ.text[k]` (R60). A well-formed text field has 26 cells and `k` is always below 26. -/
def textCell (text : List Cell) (k : Nat) : Cell := text.getD k 0x00#8

/-- `T <- REQ.text[0..LEN(f)-1]`: the cells an expand operation reads for form `f` (R150 to R152, R156). -/
def readText (f : Form) (text : List Cell) : List Cell :=
  (List.range f.len).map (textCell text)

/-- The form that a length selects: 22 selects form 64, 26 selects form 32, no other length selects one
(R152). The length alone decides; no character is looked at. -/
def formOfLength (tlen : Byte) : Option Form :=
  if tlen = Form.form64.lenByte then some .form64
  else if tlen = Form.form32.lenByte then some .form32
  else none

end Sys2Proof.Machine
end

