-- ==== Sys2Proof/Machine/Expand.lean ====
section
/-! DEFINITION. The expand operations (43_expand.md): the routine `EXPAND(f)` (R156), `EXP64` (R150), `EXP32`
(R151) and the dispatcher `EXP` (R152). The tests come in the order of 60_exceptions.md R175: length, alphabet,
byte count. -/

namespace Sys2Proof.Machine

open Sys2Proof

/-- A successful expand response: the two words, everything else zero (R68, R150). -/
def expandResponse (hi lo : Word) : Response :=
  { Response.initial with hi := hi, lo := lo }

/-- What follows the decode: `BadChar -> DecodeError; n != 16 -> FormatError; (hi, lo) <- UNPACK(B)`
(R150, R156; the byte-count test is kept although the built-in codec cannot fail it, R128). -/
def finishExpand : DecResult → Except ErrorClass (Word × Word)
  | .badChar => .error .decodeError
  | .bytes B => if B.length = Config.bufLen then .ok (unpack B) else .error .formatError

/-- The response of an expand routine's outcome (R14, R150). -/
def expandOutcome : Except ErrorClass (Word × Word) → Response
  | .ok p => expandResponse p.1 p.2
  | .error e => errorResponse e

/-- `EXPAND(f) = { T <- REQ.text[0..LEN(f)-1]; r <- DEC(f, T); ... }` (R156). -/
def expand (f : Form) (text : List Cell) : Response :=
  expandOutcome (finishExpand (dec f (readText f text)))

/-- The same through an external codec (R112, R114). -/
def expandThrough (c : Codec) (f : Form) (text : List Cell) : Response :=
  expandOutcome (finishExpand (c.decode (readText f text)))

/-- An expand operation that requires one length: the length test, then `EXPAND(f)` (R150, R151, R156). -/
def expandExactly (f : Form) (tlen : Byte) (text : List Cell) (s : State) : State :=
  if tlen = f.lenByte then s.give (expand f text) else s.raise (.lengthError f.lenByte)

/-- `EXP64` (R150). -/
def execExp64 (tlen : Byte) (text : List Cell) (s : State) : Host.Outcome State Fault Refusal :=
  .next (expandExactly .form64 tlen text s)

/-- `EXP32` (R151). -/
def execExp32 (tlen : Byte) (text : List Cell) (s : State) : Host.Outcome State Fault Refusal :=
  .next (expandExactly .form32 tlen text s)

/-- `EXP`: the length selects the form; a length that selects none is a `FormatError` (R152). -/
def execExp (tlen : Byte) (text : List Cell) (s : State) : Host.Outcome State Fault Refusal :=
  match formOfLength tlen with
  | some f => .next (s.give (expand f text))
  | none => .next (s.raise .formatError)

end Sys2Proof.Machine
end

