-- ==== Sys2Proof/Machine/Dispatch.lean ====
section
/-! DEFINITION. One arm per operation of the opcode map (30_encoding.md R63). -/

namespace Sys2Proof.Machine

open Sys2Proof

def exec (i : Instr) (s : State) : Host.Outcome State Fault Refusal :=
  match i with
  | .cmp64 hi lo => Sys2Proof.Machine.execCmp64 hi lo s
  | .cmp32 hi lo => Sys2Proof.Machine.execCmp32 hi lo s
  | .exp tlen text => Sys2Proof.Machine.execExp tlen text s
  | .exp64 tlen text => Sys2Proof.Machine.execExp64 tlen text s
  | .exp32 tlen text => Sys2Proof.Machine.execExp32 tlen text s

end Sys2Proof.Machine
end

