-- ==== Sys2Proof/Machine/Port.lean ====
section
/-! DEFINITION. The ports, seen from both sides: how a step takes the next request (70_reset_and_hazards.md
R204) and executes an opcode that is no operation (30_encoding.md R66), and what the outside can do to the
block between two steps: present a request, take a response, assert reset (R200, R206). -/

namespace Sys2Proof.Machine

open Sys2Proof

/-- The oldest accepted request and the state with it taken from the queue; `none` when nothing is in flight
(R28, R204). -/
def State.takeRequest (s : State) : Option (RequestFrame × State) :=
  match s.queue with
  | [] => none
  | q :: rest => some (q, { s with queue := rest })

/-- A request whose opcode is no operation: the error response `ILLEGAL_OP`; no other field is looked at
(R66, R172 E1). -/
def execIllegalOp (s : State) : Host.Outcome State Fault Refusal :=
  .next (s.raise .illegalOp)

/-- The host presents a request: it is accepted, behind those in flight, when fewer than `QDEPTH` are in flight;
otherwise the host is stalled and nothing changes (R28, R204, R207). -/
def State.present (q : RequestFrame) (s : State) : Option State :=
  if s.queue.length < Config.qdepth then some { s with queue := s.queue ++ [q] } else none

/-- The host takes (reads, or abandons) the oldest response on the response port (R204, R206). -/
def State.takeResponse (s : State) : Option (Response × State) :=
  match s.responses with
  | [] => none
  | r :: rest => some (r, { s with responses := rest })

/-- The host takes `n` responses, one after another; `none` when there are fewer (R204, R207). -/
def State.takeResponses : Nat → State → Option (List Response × State)
  | 0, s => some ([], s)
  | n + 1, s =>
    match s.takeResponse with
    | none => none
    | some (r, s') =>
      match State.takeResponses n s' with
      | none => none
      | some (rs, t) => some (r :: rs, t)

/-- Reset is asserted: requests in flight are dropped without a response and no response is pending (R200). -/
def State.assertReset (_s : State) : State := State.reset

/-- A frame put where the next step takes its request: in front of the queue, in place of the request that stood
there. -/
def State.placeRequest (q : RequestFrame) (s : State) : State :=
  { s with queue := q :: s.queue.tail }

end Sys2Proof.Machine
end

