-- ==== Sys2Proof/Machine/Step.lean ====
section
/-! DEFINITION. One step: the oldest request in flight is taken, decoded, executed whole and answered, "one
agent executes: the block, one step per request" (00_scope.md R16). With nothing in flight the block does
nothing (log entry 3). -/

namespace Sys2Proof.Machine

open Sys2Proof

/-- The step. -/
def step (s : State) : Host.Outcome State Fault Refusal :=
  match s.takeRequest with
  | none => .next s
  | some (q, s') =>
    match decode q with
    | .instr i => exec i s'
    | .illegalOp _ => execIllegalOp s'

/-- `F`: the response to a request, read off the step of a block that holds that request and nothing else (R16). -/
def answer (q : RequestFrame) : Option Response :=
  match step { queue := [q], responses := [] } with
  | .next s' => s'.responses.head?
  | _ => none

/-- `s` with the word stored where the next step takes its request (log entry 4). -/
def State.withFetchWord (s : State) (nbits w : Nat) : State :=
  s.placeRequest (BitVec.ofNat 352 (w % 2 ^ nbits))

end Sys2Proof.Machine
end

