-- ==== Sys2Proof/Machine/HostSide.lean ====
section
/-! DEFINITION. What the host owes the block (70_reset_and_hazards.md R206), as functions: presenting a text
(30_encoding.md R69, R70), rendering the message of an error (60_exceptions.md R173), and the pseudo-operations
that end in one of the five operations (R93). None of it is part of the block or read by a step. -/

namespace Sys2Proof.Machine

open Sys2Proof

/-- `minLong`, `maxLong` (00_scope.md R10). -/
def minLong : Word := 0x8000000000000000#64
def maxLong : Word := 0x7FFFFFFFFFFFFFFF#64

/-- A host character, given by its code, as a cell: a code that does not fit in 8 bits is presented as 0xFF, which
is in neither alphabet (R70). -/
def hostCell (code : Nat) : Cell := if code < 256 then BitVec.ofNat 8 code else 0xFF#8

/-- `tlen = min(n, 255)` (R69). -/
def hostTlen (chars : List Nat) : Byte := BitVec.ofNat 8 (min chars.length 255)

/-- The text field the assembler presents: character `k` in cell `k` for `k < min(n, 26)`, the other cells 0
(R70, R90). -/
def hostText (chars : List Nat) : List Cell :=
  (List.range Config.textCells).map fun k =>
    match chars[k]? with
    | some code => hostCell code
    | none => 0x00#8

/-- `tlen` and `text` present the host text `chars`; cells from `n` up may hold anything (R69, R70). -/
def Presents (chars : List Nat) (tlen : Byte) (text : List Cell) : Prop :=
  tlen = hostTlen chars ∧ text.length = Config.textCells ∧
    ∀ k (h : k < chars.length), k < Config.textCells → text[k]? = some (hostCell chars[k])

/-- A number in decimal digits. -/
def decimal (n : Nat) : List Char := Nat.toDigits 10 n

/-- The message the host renders from the response and from the whole text it sent (R173); `OK` and `ILLEGAL_OP`
have none. -/
def renderMessage (r : Response) (input : List Char) : Option (List Char) :=
  match r.status with
  | .ok => none
  | .lengthError => some ("Expecting a compact uuid string of length ".toList ++ decimal r.elen.toNat)
  | .formatError => some ("Not a compact uuid string: ".toList ++ input)
  | .decodeError => some ("Not a compact uuid string: ".toList ++ input)
  | .illegalOp => none

/-- The value of a hexadecimal digit. -/
def hexValue? (c : Char) : Option Nat :=
  if 0x30 ≤ c.toNat ∧ c.toNat ≤ 0x39 then some (c.toNat - 0x30)
  else if 0x41 ≤ c.toNat ∧ c.toNat ≤ 0x46 then some (c.toNat - 0x41 + 10)
  else if 0x61 ≤ c.toNat ∧ c.toNat ≤ 0x66 then some (c.toNat - 0x61 + 10)
  else none

/-- One more digit of a numeral, most significant first. -/
def numeralStep (radix : Nat) (acc : Option Nat) (c : Char) : Option Nat :=
  match acc, hexValue? c with
  | some a, some d => if d < radix then some (a * radix + d) else none
  | _, _ => none

/-- The value of a non-empty numeral in the radix, 10 or 16. -/
def numeral? (radix : Nat) (cs : List Char) : Option Nat :=
  if cs = [] then none else cs.foldl (numeralStep radix) (some 0)

/-- Where the hyphens of a canonical UUID text stand: after groups of 8, 4, 4 and 4 digits (R93). -/
def hyphensOk (t : List Char) : Bool :=
  t[8]? == some '-' && t[13]? == some '-' && t[18]? == some '-' && t[23]? == some '-'

/-- A canonical UUID text without its four hyphens (R93). -/
def withoutHyphens (t : List Char) : List Char :=
  t.take 8 ++ (t.drop 9).take 4 ++ (t.drop 14).take 4 ++ (t.drop 19).take 4 ++ t.drop 24

/-- The words of a canonical UUID text: 32 hexadecimal digits in groups of 8, 4, 4, 4 and 12, the first 16 are `hi`
and the last 16 `lo`, most significant first (R93, from general knowledge). -/
def readCanonical (t : List Char) : Option (Word × Word) :=
  if t.length = 36 ∧ hyphensOk t then
    match numeral? 16 ((withoutHyphens t).take 16), numeral? 16 ((withoutHyphens t).drop 16) with
    | some h, some l => some (BitVec.ofNat 64 h, BitVec.ofNat 64 l)
    | _, _ => none
  else none

/-- The host's "standard UUID text parsing": which texts it accepts is open, and so is what it makes of a text it
accepts that is not canonical (R93; log entry 7). -/
def hostParse (t : List Char) : Option (Word × Word) :=
  if Config.uuidParserAccepts t then
    match readCanonical t with
    | some p => some p
    | none => some (Config.uuidParserOther t)
  else none

/-- The pseudo-operations: host software with no opcode (R93). -/
inductive PseudoOp where
  | cmp64u (text : List Char)
  | cmp32u (text : List Char)
  | cmp64v (hi lo : Word)
  | cmp32v (hi lo : Word)
  deriving DecidableEq, Repr

/-- What a pseudo-operation comes to: one request, or a `FormatError` that the host itself raises without issuing
any request (R93, R170). -/
inductive HostAction where
  | issue (i : Instr)
  | raiseFormatError
  deriving DecidableEq, Repr

/-- The expansion of a pseudo-operation (R93). -/
def PseudoOp.expand : PseudoOp → HostAction
  | .cmp64u t =>
    match hostParse t with
    | some p => .issue (.cmp64 p.1 p.2)
    | none => .raiseFormatError
  | .cmp32u t =>
    match hostParse t with
    | some p => .issue (.cmp32 p.1 p.2)
    | none => .raiseFormatError
  | .cmp64v hi lo => .issue (.cmp64 hi lo)
  | .cmp32v hi lo => .issue (.cmp32 hi lo)

/-- `EXPx(CMPy(...))`: copy `RSP.olen` into `tlen` and `RSP.text` into `REQ.text` (R154). -/
def feedBack (mk : Byte → List Cell → Instr) (r : Response) : Instr := mk r.olen r.text

end Sys2Proof.Machine
end

