-- ==== Sys2Proof/Machine/Assembler.lean ====
section
/-! DEFINITION. The textual notation of 30_encoding.md R90 to R92: one request a line, its encoding into a frame,
and how a response and a frame are printed. Host software; no step reads any of it. -/

namespace Sys2Proof.Machine

open Sys2Proof

/-- A request line (R90). The text of an expand line is its sequence of cells, of any length. -/
inductive AsmLine where
  | cmp64 (hi lo : Word)
  | cmp32 (hi lo : Word)
  | exp64 (cells : List Cell)
  | exp32 (cells : List Cell)
  | exp (cells : List Cell)
  deriving DecidableEq, Repr

/-- The instruction of a line: `tlen = min(n, 255)`, cells 0..min(n,26)-1 filled, the rest 0 (R90, R91). -/
def AsmLine.instr : AsmLine → Instr
  | .cmp64 hi lo => .cmp64 hi lo
  | .cmp32 hi lo => .cmp32 hi lo
  | .exp64 cells => .exp64 (hostTlen (cells.map BitVec.toNat)) (hostText (cells.map BitVec.toNat))
  | .exp32 cells => .exp32 (hostTlen (cells.map BitVec.toNat)) (hostText (cells.map BitVec.toNat))
  | .exp cells => .exp (hostTlen (cells.map BitVec.toNat)) (hostText (cells.map BitVec.toNat))

/-- The request frame of a line (R91). -/
def AsmLine.frame (l : AsmLine) : RequestFrame := encode l.instr

/-- A space or a tab. -/
def isBlank (c : Char) : Bool := c.toNat == 0x20 || c.toNat == 0x09

/-- A letter, a digit or `-`: the characters of a mnemonic or of a literal. -/
def isWordChar (c : Char) : Bool :=
  (0x30 ≤ c.toNat && c.toNat ≤ 0x39) || (0x41 ≤ c.toNat && c.toNat ≤ 0x5A) ||
    (0x61 ≤ c.toNat && c.toNat ≤ 0x7A) || c.toNat == 0x2D

/-- Nothing but blanks and a comment is left; a `;` starts a comment (R90). -/
def lineEnds (cs : List Char) : Bool :=
  match cs.dropWhile isBlank with
  | [] => true
  | c :: _ => c == ';'

/-- A 64-bit literal: `0x` and 1 to 16 hexadecimal digits, or a decimal number from -9223372036854775808 to
18446744073709551615, or `minLong`, or `maxLong` (R90). DESIGN CHOICE (log entry 11): R94 calls `COMPACT64_LEN` and
`COMPACT32_LEN` named constants "in the syntax" and says nowhere in a line where they may stand; R90's list of literals does not
have them, and they are no literals here. Their values are `Form.len`. -/
def literal? (cs : List Char) : Option Word :=
  if cs = "minLong".toList then some minLong
  else if cs = "maxLong".toList then some maxLong
  else
    match cs with
    | '0' :: 'x' :: ds =>
      if ds.length ≤ 16 then (numeral? 16 ds).map (BitVec.ofNat 64) else none
    | '-' :: ds =>
      match numeral? 10 ds with
      | some n => if n ≤ 2 ^ 63 then some (-(BitVec.ofNat 64 n)) else none
      | none => none
    | ds =>
      match numeral? 10 ds with
      | some n => if n < 2 ^ 64 then some (BitVec.ofNat 64 n) else none
      | none => none

/-- One more cell in front of a text read so far. -/
def consCell (code : Nat) : Option (List Cell × List Char) → Option (List Cell × List Char)
  | some (cells, rest) => some (BitVec.ofNat 8 code :: cells, rest)
  | none => none

/-- The cells of a text up to its closing quote (0x22), and what follows it: a printable ASCII character other than
the quote and the backslash (0x5C) stands for itself; after a backslash `xHH` is the cell 0xHH, and a quote or a
backslash is itself (R90). -/
def quoted? : List Char → Option (List Cell × List Char)
  | [] => none
  | c :: rest =>
    if c.toNat = 0x22 then some ([], rest)
    else if c.toNat = 0x5C then
      match rest with
      | [] => none
      | x :: rest' =>
        if x.toNat = 0x22 ∨ x.toNat = 0x5C then consCell x.toNat (quoted? rest')
        else if x = 'x' then
          match rest' with
          | h :: l :: rest'' =>
            match numeral? 16 [h, l] with
            | some v => consCell v (quoted? rest'')
            | none => none
          | _ => none
        else none
    else if 0x20 ≤ c.toNat ∧ c.toNat ≤ 0x7E then consCell c.toNat (quoted? rest)
    else none

/-- The operands `<hi>, <lo>` and the end of the line (R90). -/
def twoLiterals? (cs : List Char) : Option (Word × Word) :=
  match (cs.dropWhile isWordChar).dropWhile isBlank with
  | ',' :: rest =>
    match literal? (cs.takeWhile isWordChar), literal? ((rest.dropWhile isBlank).takeWhile isWordChar) with
    | some hi, some lo =>
      if lineEnds ((rest.dropWhile isBlank).dropWhile isWordChar) then some (hi, lo) else none
    | _, _ => none
  | _ => none

/-- The operand `"<text>"` and the end of the line (R90). -/
def textOperand? (cs : List Char) : Option (List Cell) :=
  match cs with
  | c :: rest =>
    if c.toNat = 0x22 then
      match quoted? rest with
      | some (cells, after) => if lineEnds after then some cells else none
      | none => none
    else none
  | [] => none

/-- A request line; `none` for anything else, a blank or comment line included (R90). -/
def parseLine? (line : List Char) : Option AsmLine :=
  let cs := line.dropWhile isBlank
  let word := cs.takeWhile isWordChar
  let operands := (cs.dropWhile isWordChar).dropWhile isBlank
  if word = "CMP64".toList then (twoLiterals? operands).map fun p => .cmp64 p.1 p.2
  else if word = "CMP32".toList then (twoLiterals? operands).map fun p => .cmp32 p.1 p.2
  else if word = "EXP64".toList then (textOperand? operands).map .exp64
  else if word = "EXP32".toList then (textOperand? operands).map .exp32
  else if word = "EXP".toList then (textOperand? operands).map .exp
  else none

/-- A hexadecimal digit, upper case as the spec prints frames. -/
def hexChar (d : Nat) : Char := if d < 10 then Char.ofNat (0x30 + d) else Char.ofNat (0x41 + (d - 10))

/-- `n` hexadecimal digits, most significant first (R91). -/
def hexDigits (n v : Nat) : List Char :=
  (List.range n).map fun k => hexChar (v / 16 ^ (n - 1 - k) % 16)

/-- A request frame is printed as 88 hexadecimal digits (R91). -/
def printRequest (q : RequestFrame) : List Char := hexDigits 88 q.toNat

/-- A response frame is printed as 90 hexadecimal digits (R91). -/
def printResponseFrame (w : ResponseFrame) : List Char := hexDigits 90 w.toNat

/-- A text cell as the character it is the code of. -/
def cellChar (c : Cell) : Char := Char.ofNat c.toNat

/-- A response in the notation of R92. -/
def printResponse (r : Response) : List Char :=
  match r.status with
  | .ok =>
    if r.olen = 0#8 then
      "-> OK hi=0x".toList ++ hexDigits 16 r.hi.toNat ++ " lo=0x".toList ++ hexDigits 16 r.lo.toNat
    else
      "-> OK text=".toList ++ [Char.ofNat 0x22] ++ (r.text.take r.olen.toNat).map cellChar ++ [Char.ofNat 0x22]
  | .lengthError => "-> LENGTH_ERROR elen=".toList ++ decimal r.elen.toNat
  | .formatError => "-> FORMAT_ERROR".toList
  | .decodeError => "-> DECODE_ERROR".toList
  | .illegalOp => "-> ILLEGAL_OP".toList

end Sys2Proof.Machine
end

