-- ==== Sys2Proof/Safety.lean ====
section
/-! DEFINITION. What counts as a safe state and a safe run, in the terms the claims use. A run of this block never
faults and is never refused; what there is to be safe about is the form of its responses (30_encoding.md R61, R65,
R68, 60_exceptions.md R172, R176) and the bound on the in-flight queue (10_state.md R28). -/

namespace Sys2Proof.Machine

open Sys2Proof

/-- The response that carries two words and nothing else, every field written out (R61, R68). -/
def wordsResponse (hi lo : Word) : Response :=
  { status := .ok, olen := 0x00#8, elen := 0x00#8, lo := lo, hi := hi, text := List.replicate 26 0x00#8 }

/-- An error response, every field written out (R176). -/
def failureResponse (status : Status) (elen : Byte) : Response :=
  { status := status, olen := 0x00#8, elen := elen, lo := 0#64, hi := 0#64, text := List.replicate 26 0x00#8 }

/-- All data fields zero: `olen`, `hi`, `lo` and the 26 cells (R68, R176). -/
abbrev Response.Blank (r : Response) : Prop :=
  r.olen = 0#8 ∧ r.hi = 0#64 ∧ r.lo = 0#64 ∧ r.text = blankText

/-- A successful compact response of form `f`: `olen` is `LEN(f)`, the first `LEN(f)` cells are a canonical text, the
others 0x00, `hi`, `lo`, `elen` zero (R61, R68, R83). -/
abbrev Response.CompactOk (f : Form) (r : Response) : Prop :=
  r.olen = f.lenByte ∧ r.elen = 0#8 ∧ r.hi = 0#64 ∧ r.lo = 0#64 ∧
    canonical f (r.text.take f.len) = true ∧
    r.text.drop f.len = List.replicate (Config.textCells - f.len) 0x00#8

/-- A successful expand response: no text, `olen` and `elen` zero, any words (R61, R68). -/
abbrev Response.ExpandOk (r : Response) : Prop :=
  r.olen = 0#8 ∧ r.elen = 0#8 ∧ r.text = blankText

/-- The responses the block may give: the rows of R172, and the successes of R140, R141, R150 to R152. -/
abbrev Response.Legal (r : Response) : Prop :=
  (r.status = .ok ∧ (r.CompactOk .form64 ∨ r.CompactOk .form32 ∨ r.ExpandOk)) ∨
  (r.status = .lengthError ∧ (r.elen = 22#8 ∨ r.elen = 26#8) ∧ r.Blank) ∨
  ((r.status = .formatError ∨ r.status = .decodeError ∨ r.status = .illegalOp) ∧ r.elen = 0#8 ∧ r.Blank)

/-- The invariant: at most `QDEPTH` requests are in flight (R28) and every response standing on the port is one the
block may give. -/
def State.Inv (s : State) : Prop :=
  s.queue.length ≤ Config.qdepth ∧ ∀ r ∈ s.responses, r.Legal

/-- The block's side of the end of a run: every accepted request is answered and the host has read every response
(R207). That the host has no further request to issue is the host's. -/
abbrev State.AtRest (s : State) : Prop := s.queue = [] ∧ s.responses = []

/-- A run of `k` steps is safe when it neither faults nor is refused. -/
def SafeRun (s : State) : Nat → Prop
  | 0 => True
  | k + 1 => ∃ s', step s = .next s' ∧ SafeRun s' k

/-- The direction of an operation: true for the expand operations (R63). -/
def isExpand : Instr → Bool
  | .cmp64 _ _ => false
  | .cmp32 _ _ => false
  | .exp _ _ => true
  | .exp64 _ _ => true
  | .exp32 _ _ => true

/-- The form an operation is tied to; `EXP` chooses by length (R63). -/
def fixedForm : Instr → Option Form
  | .cmp64 _ _ => some .form64
  | .cmp32 _ _ => some .form32
  | .exp _ _ => none
  | .exp64 _ _ => some .form64
  | .exp32 _ _ => some .form32

/-- Two requests agree on every field that their operation reads: the table of R62, row by row. -/
def SameReadFields (q q' : RequestFrame) : Prop :=
  reqOp q = reqOp q' ∧
  (reqOp q = 0x01#8 ∨ reqOp q = 0x02#8 → reqHi q = reqHi q' ∧ reqLo q = reqLo q') ∧
  (reqOp q = 0x05#8 → reqTlen q = reqTlen q' ∧
    (reqTlen q = 22#8 → ∀ k < 22, (reqText q)[k]? = (reqText q')[k]?)) ∧
  (reqOp q = 0x06#8 → reqTlen q = reqTlen q' ∧
    (reqTlen q = 26#8 → ∀ k < 26, (reqText q)[k]? = (reqText q')[k]?)) ∧
  (reqOp q = 0x04#8 → reqTlen q = reqTlen q' ∧
    (reqTlen q = 22#8 → ∀ k < 22, (reqText q)[k]? = (reqText q')[k]?) ∧
    (reqTlen q = 26#8 → ∀ k < 26, (reqText q)[k]? = (reqText q')[k]?))

/-- Every cell of the text is in the alphabet of the form. -/
abbrev InAlphabet (f : Form) (T : List Cell) : Prop := ∀ c ∈ T, inv f c ≠ none

/-- The contract of a `ByteTextCodec` for one form, on the inputs the block gives it: what it returns for 16 bytes
(R111), that it rejects every character outside the alphabet (R112), and that it is reversible (R113). -/
structure Codec.MeetsContract (c : Codec) (f : Form) : Prop where
  /-- The first `LEN(f)` characters are there and are from the alphabet; 24 characters in all for base-64. -/
  encodeData : ∀ B : List Byte, B.length = 16 →
    (trunc f (c.encode B)).length = f.len ∧ InAlphabet f (trunc f (c.encode B)) ∧
      (f = .form64 → (c.encode B).length = 24)
  /-- The remaining characters are all padding. -/
  encodePadding : ∀ B : List Byte, B.length = 16 → ∀ p ∈ (c.encode B).drop f.len, p = Config.pad
  /-- A character outside the alphabet is rejected with a detectable error. -/
  decodeRejects : ∀ T : List Cell, T.length = f.len → ¬ InAlphabet f T → c.decode T = .badChar
  /-- Decoding the first `LEN(f)` characters of an encoding returns the 16 bytes. -/
  reversible : ∀ B : List Byte, B.length = 16 → c.decode (trunc f (c.encode B)) = .bytes B

end Sys2Proof.Machine
end

