-- ==== Sys2Proof/Certificates/Slice0/Obligations.lean ====
section
/-! DEFINITION. The statements for the provers. Each docstring names the rules of spec/ it formalises. -/

open Sys2Proof Sys2Proof.Machine

/-! ### Encoding -/

/-- Five request frames of 95_test_vectors.md (V-FRAME and V-IND), one for each operation, decode to the operation and
operands they are printed beside. -/
def Obligations.ReferenceFramesDecode : Prop :=
  decode 0x000000000000000000000000000000000000000000000000000000112233445566778899AABBCCDDEEFF0001#352 =
    .instr (.cmp64 0x0011223344556677#64 0x8899AABBCCDDEEFF#64) ∧
  decode 0xFFFFFFFFFFFFFFFFFFFFFFFFFFFFFFFFFFFFFFFFFFFFFFFFFFFF00112233445566778899AABBCCDDEEFF9902#352 =
    .instr (.cmp32 0x0011223344556677#64 0x8899AABBCCDDEEFF#64) ∧
  decode 0x0000000000414141414141414141414141414141414141414141000000000000000000000000000000001504#352 =
    .instr (.exp 21#8 (List.replicate 21 0x41#8 ++ List.replicate 5 0x00#8)) ∧
  decode 0x4141414141414141414141414141414141414141414141414141000000000000000000000000000000001A05#352 =
    .instr (.exp64 26#8 (List.replicate 26 0x41#8)) ∧
  decode 0x0000000041414141414141414141414141414141414141414141000000000000000000000000000000001606#352 =
    .instr (.exp32 22#8 (List.replicate 22 0x41#8 ++ List.replicate 4 0x00#8))

/-- R60 (and the numbers of R63): which bits of the frame the decoder reads into each operand, for each of the five opcodes, and that the
other 251 opcodes are rejected. -/
def Obligations.DecodeReadsFrameFields : Prop :=
  ∀ q : RequestFrame,
    (q.extractLsb' 0 8 = 0x01#8 → decode q = .instr (.cmp64 (q.extractLsb' 80 64) (q.extractLsb' 16 64))) ∧
    (q.extractLsb' 0 8 = 0x02#8 → decode q = .instr (.cmp32 (q.extractLsb' 80 64) (q.extractLsb' 16 64))) ∧
    (q.extractLsb' 0 8 = 0x04#8 → decode q =
      .instr (.exp (q.extractLsb' 8 8) ((List.range 26).map fun k => q.extractLsb' (144 + 8 * k) 8))) ∧
    (q.extractLsb' 0 8 = 0x05#8 → decode q =
      .instr (.exp64 (q.extractLsb' 8 8) ((List.range 26).map fun k => q.extractLsb' (144 + 8 * k) 8))) ∧
    (q.extractLsb' 0 8 = 0x06#8 → decode q =
      .instr (.exp32 (q.extractLsb' 8 8) ((List.range 26).map fun k => q.extractLsb' (144 + 8 * k) 8))) ∧
    (q.extractLsb' 0 8 ∉ [0x01#8, 0x02#8, 0x04#8, 0x05#8, 0x06#8] → decode q = .illegalOp (q.extractLsb' 0 8))

/-- Decoding the frame of a well-formed instruction gives the instruction back, all operands at every value (R60, R91). -/
def Obligations.DecodeOfEncode : Prop :=
  ∀ i : Instr, i.wellFormed = true → decode (encode i) = .instr i

/-- What the decoder accepts is well formed, and its encoding is a frame with the same read fields (R60, R62). -/
def Obligations.DecodedIsWellFormedAndReencodes : Prop :=
  ∀ (q : RequestFrame) (i : Instr), decode q = .instr i →
    i.wellFormed = true ∧ SameReadFields (encode i) q

/-- R64: the opcode as fields. Bits [7:3] are zero, bit 2 is the direction, bits [1:0] select form 64, form 32, or (only
with direction 1) the form by length; these conditions accept exactly what the decoder accepts and say the same. -/
def Obligations.OpcodeFieldsAgreeWithTable : Prop :=
  ∀ q : RequestFrame,
    ((∃ i, decode q = .instr i) ↔
      ((reqOp q).extractLsb' 3 5 = 0#5 ∧
        ((reqOp q).extractLsb' 0 2 = 0b01#2 ∨ (reqOp q).extractLsb' 0 2 = 0b10#2 ∨
          ((reqOp q).extractLsb' 0 2 = 0b00#2 ∧ (reqOp q).extractLsb' 2 1 = 1#1)))) ∧
    ∀ i, decode q = .instr i →
      (isExpand i = true ↔ (reqOp q).extractLsb' 2 1 = 1#1) ∧
      (fixedForm i = some .form64 ↔ (reqOp q).extractLsb' 0 2 = 0b01#2) ∧
      (fixedForm i = some .form32 ↔ (reqOp q).extractLsb' 0 2 = 0b10#2) ∧
      (fixedForm i = none ↔ (reqOp q).extractLsb' 0 2 = 0b00#2)

/-- R66: an opcode that is no operation is answered `ILLEGAL_OP` with every data field zero; the five opcodes are never
answered so, whatever `tlen`, `hi`, `lo` and the cells hold. -/
def Obligations.IllegalOpcodesAnswered : Prop :=
  ∀ (s : State) (q : RequestFrame) (rest : List RequestFrame), s.queue = q :: rest →
    (reqOp q ∉ [0x01#8, 0x02#8, 0x04#8, 0x05#8, 0x06#8] →
      step s = .next { queue := rest, responses := s.responses ++ [failureResponse .illegalOp 0x00#8] }) ∧
    (reqOp q ∈ [0x01#8, 0x02#8, 0x04#8, 0x05#8, 0x06#8] →
      ∃ r, step s = .next { queue := rest, responses := s.responses ++ [r] } ∧ r.status ≠ .illegalOp)

/-- R62: requests that agree on the fields their operation reads get the same response. -/
def Obligations.UnreadFieldsHaveNoEffect : Prop :=
  ∀ q q' : RequestFrame, SameReadFields q q' → answer q = answer q'

/-- The layout of the response frame (the field table of R61): every field and every text cell at its bits. -/
def Obligations.ResponseFrameLayout : Prop :=
  ∀ r : Response, r.text.length = 26 →
    r.toFrame.extractLsb' 0 8 = r.status.code ∧
    r.toFrame.extractLsb' 8 8 = r.olen ∧
    r.toFrame.extractLsb' 16 8 = r.elen ∧
    r.toFrame.extractLsb' 24 64 = r.lo ∧
    r.toFrame.extractLsb' 88 64 = r.hi ∧
    ∀ k < 26, r.text[k]? = some (r.toFrame.extractLsb' (152 + 8 * k) 8)

/-- R171: the code of `OK` and of each error class in a response frame; and every response the block gives carries one of these
five codes and reads back from its frame unchanged, so 0x05 to 0xFF are never produced (R65). -/
def Obligations.StatusCodesAndFramesReadBack : Prop :=
  (Response.initial.toFrame.extractLsb' 0 8 = 0x00#8 ∧
    (∀ n, (errorResponse (.lengthError n)).toFrame.extractLsb' 0 8 = 0x01#8) ∧
    (errorResponse .formatError).toFrame.extractLsb' 0 8 = 0x02#8 ∧
    (errorResponse .decodeError).toFrame.extractLsb' 0 8 = 0x03#8 ∧
    (errorResponse .illegalOp).toFrame.extractLsb' 0 8 = 0x04#8) ∧
  ∀ (q : RequestFrame) (r : Response), answer q = some r →
    (r.toFrame.extractLsb' 0 8).toNat ≤ 4 ∧ Response.ofFrame? r.toFrame = some r

/-! ### The byte buffer -/

/-- R100 (and R41, derived by the spec): the buffer is big-endian over `V = hi ‖ lo`: 16 bytes, byte `i` is `V[127-8*i : 120-8*i]`, and so byte `i`
of `hi` for `i < 8` and of `lo` after. -/
def Obligations.PackIsBigEndian : Prop :=
  ∀ hi lo : Word, (pack hi lo).length = 16 ∧
    (∀ i < 16, (pack hi lo)[i]? = some ((hi ++ lo : Ident).extractLsb' (120 - 8 * i) 8)) ∧
    (∀ i < 8, (pack hi lo)[i]? = some (hi.extractLsb' (56 - 8 * i) 8)) ∧
    (∀ i < 8, (pack hi lo)[8 + i]? = some (lo.extractLsb' (56 - 8 * i) 8))

/-- The shift-and-mask form (R101, which the spec marks as derived from R100): extracting the bytes by a logical or by an arithmetic right shift gives the same buffer. -/
def Obligations.PackByEitherShift : Prop :=
  ∀ hi lo : Word, ∀ i < 8,
    (pack hi lo)[i]? = some ((hi >>> (56 - 8 * i)).setWidth 8) ∧
    (pack hi lo)[i]? = some ((hi.sshiftRight (56 - 8 * i)).setWidth 8) ∧
    (pack hi lo)[8 + i]? = some ((lo >>> (56 - 8 * i)).setWidth 8) ∧
    (pack hi lo)[8 + i]? = some ((lo.sshiftRight (56 - 8 * i)).setWidth 8)

/-- R102, R103: `hi = B[0] ‖ ... ‖ B[7]` and `lo = B[8] ‖ ... ‖ B[15]`, every byte where it stands and nothing else: a
byte 0x80 to 0xFF is not sign-extended over the bytes before it. -/
def Obligations.UnpackIsUnsigned : Prop :=
  ∀ B : List Byte, B.length = 16 → ∀ i < 8,
    B[i]? = some ((unpack B).1.extractLsb' (56 - 8 * i) 8) ∧
    B[8 + i]? = some ((unpack B).2.extractLsb' (56 - 8 * i) 8)

/-- Packing and unpacking are inverse bijections (R104, which the spec marks as derived from R100 and R102). -/
def Obligations.PackUnpackInverse : Prop :=
  (∀ hi lo : Word, unpack (pack hi lo) = (hi, lo)) ∧
  ∀ B : List Byte, B.length = 16 → pack (unpack B).1 (unpack B).2 = B

/-- R13: `MemWrite` puts the bytes of a value most significant first and leaves the other cells alone; `MemRead` is the
concatenation of the cells it reads, so it reads back what was written there. Stated for every access that fits in the
buffer; the four that the block makes are at 0 and at 8, of 8 cells. -/
def Obligations.BufferAccesses : Prop :=
  ∀ (B : List Byte) (a n : Nat) (v : BitVec (8 * n)), a + n ≤ B.length →
    memRead (memWrite B a n v) a n = v ∧
    (∀ j < n, (memWrite B a n v)[a + j]? = some (v.extractLsb' (8 * (n - 1 - j)) 8)) ∧
    (∀ i, (i < a ∨ a + n ≤ i) → (memWrite B a n v)[i]? = B[i]?) ∧
    (∀ j < n, B[a + j]? = some ((memRead B a n).extractLsb' (8 * (n - 1 - j)) 8)) ∧
    ∀ b m, (b + m ≤ a ∨ a + n ≤ b) → memRead (memWrite B a n v) b m = memRead B b m

/-! ### The alphabets and the codec -/

/-- R76: `ALPHA64` in closed form. -/
def Obligations.Alphabet64ClosedForm : Prop :=
  ∀ v : BitVec 6,
    (v.toNat ≤ 25 → (alpha64 v).toNat = 0x41 + v.toNat) ∧
    (26 ≤ v.toNat → v.toNat ≤ 51 → (alpha64 v).toNat = 0x61 + (v.toNat - 26)) ∧
    (52 ≤ v.toNat → v.toNat ≤ 61 → (alpha64 v).toNat = 0x30 + (v.toNat - 52)) ∧
    (v.toNat = 62 → alpha64 v = 0x2D#8) ∧
    (v.toNat = 63 → alpha64 v = 0x5F#8)

/-- R78: `ALPHA32` in closed form. -/
def Obligations.Alphabet32ClosedForm : Prop :=
  ∀ v : BitVec 5,
    (v.toNat ≤ 25 → (alpha32 v).toNat = 0x41 + v.toNat) ∧
    (26 ≤ v.toNat → (alpha32 v).toNat = 0x32 + (v.toNat - 26))

/-- R77, which the spec marks as derived from R76: `INV64` range by range, and it is the inverse of `ALPHA64`; 192 of the 256 cell values are invalid, among them `+`, `/`, `=`, space, 0x00
and every value from 0x80 up. -/
def Obligations.Inverse64IsExact : Prop :=
  (∀ c : Cell,
    (0x41 ≤ c.toNat → c.toNat ≤ 0x5A → inv64 c = some (BitVec.ofNat 6 (c.toNat - 0x41))) ∧
    (0x61 ≤ c.toNat → c.toNat ≤ 0x7A → inv64 c = some (BitVec.ofNat 6 (c.toNat - 0x61 + 26))) ∧
    (0x30 ≤ c.toNat → c.toNat ≤ 0x39 → inv64 c = some (BitVec.ofNat 6 (c.toNat - 0x30 + 52)))) ∧
  inv64 0x2D#8 = some 62#6 ∧ inv64 0x5F#8 = some 63#6 ∧
  (∀ v : BitVec 6, inv64 (alpha64 v) = some v) ∧
  (∀ (c : Cell) (v : BitVec 6), inv64 c = some v → alpha64 v = c) ∧
  ((List.range 256).filter fun n => (inv64 (BitVec.ofNat 8 n)).isNone).length = 192 ∧
  (∀ c ∈ [0x2B#8, 0x2F#8, 0x3D#8, 0x20#8, 0x00#8], inv64 c = none) ∧
  (∀ c : Cell, 0x80 ≤ c.toNat → inv64 c = none)

/-- R79, which the spec marks as derived from R78: `INV32` range by range, and it is the inverse of `ALPHA32`; 224 of the 256 cell values are invalid, among them the lower-case letters, `0`,
`1`, `8`, `9`, `-`, `_`, `=`, space, 0x00 and every value from 0x80 up. -/
def Obligations.Inverse32IsExact : Prop :=
  (∀ c : Cell,
    (0x41 ≤ c.toNat → c.toNat ≤ 0x5A → inv32 c = some (BitVec.ofNat 5 (c.toNat - 0x41))) ∧
    (0x32 ≤ c.toNat → c.toNat ≤ 0x37 → inv32 c = some (BitVec.ofNat 5 (c.toNat - 0x32 + 26)))) ∧
  (∀ v : BitVec 5, inv32 (alpha32 v) = some v) ∧
  (∀ (c : Cell) (v : BitVec 5), inv32 c = some v → alpha32 v = c) ∧
  ((List.range 256).filter fun n => (inv32 (BitVec.ofNat 8 n)).isNone).length = 224 ∧
  (∀ c ∈ [0x30#8, 0x31#8, 0x38#8, 0x39#8, 0x2D#8, 0x5F#8, 0x3D#8, 0x20#8, 0x00#8], inv32 c = none) ∧
  (∀ c : Cell, 0x61 ≤ c.toNat → c.toNat ≤ 0x7A → inv32 c = none) ∧
  (∀ c : Cell, 0x80 ≤ c.toNat → inv32 c = none)

/-- R80: `PAD` is `=`, is in neither alphabet, is in no response, and is accepted by no expand operation in any cell it
reads. -/
def Obligations.PaddingNeverInOrOut : Prop :=
  Config.pad = 0x3D#8 ∧ inv64 Config.pad = none ∧ inv32 Config.pad = none ∧
  (∀ (q : RequestFrame) (r : Response), answer q = some r → Config.pad ∉ r.text) ∧
  ∀ (text : List Cell) (s : State) (k : Nat), text[k]? = some Config.pad →
    (k < 22 → ∀ i ∈ [Instr.exp64 22#8 text, Instr.exp 22#8 text],
      exec i s = .next { s with responses := s.responses ++ [failureResponse .decodeError 0x00#8] }) ∧
    (k < 26 → ∀ i ∈ [Instr.exp32 26#8 text, Instr.exp 26#8 text],
      exec i s = .next { s with responses := s.responses ++ [failureResponse .decodeError 0x00#8] })

/-- R83, which the spec marks as derived from R81 and R82: what canonical texts look like, that they are the compact texts, each of exactly one identifier, and that a text over
the alphabet that is not canonical is expanded all the same, to the words of the canonical text with its fill bits cleared. -/
def Obligations.CanonicalTextsAreCompactTexts : Prop :=
  (∀ (f : Form) (T : List Cell), canonical f T = true ↔
    ∃! p : Word × Word, (compact f p.1 p.2).text.take f.len = T) ∧
  (∀ T : List Cell, canonical .form64 T = true ↔
    (T.length = 22 ∧ InAlphabet .form64 T ∧ ∃ c ∈ [0x41#8, 0x51#8, 0x67#8, 0x77#8], T[21]? = some c)) ∧
  (∀ T : List Cell, canonical .form32 T = true ↔
    (T.length = 26 ∧ InAlphabet .form32 T ∧
      ∃ c ∈ [0x41#8, 0x45#8, 0x49#8, 0x4D#8, 0x51#8, 0x55#8, 0x59#8, 0x34#8], T[25]? = some c)) ∧
  ∀ (f : Form) (T : List Cell), T.length = f.len → InAlphabet f T →
    canonical f (canonicalize f T) = true ∧
    ∃ hi lo : Word, expand f T = wordsResponse hi lo ∧ expand f (canonicalize f T) = wordsResponse hi lo

/-- R127: a text over the alphabet decodes to the same bytes as the canonical text with its fill bits cleared, compacting
the bytes gives that canonical text, and under the alternative `STRICT_FILL` = true a text is decoded exactly when it is
canonical. -/
def Obligations.FillBitsIgnoredOnDecode : Prop :=
  ∀ (f : Form) (T : List Cell), T.length = f.len → InAlphabet f T →
    canonical f (canonicalize f T) = true ∧
    (∀ k, k + 1 < f.len → (canonicalize f T)[k]? = T[k]?) ∧
    (∃ b, dec f T = .bytes b ∧ dec f (canonicalize f T) = .bytes b ∧ enc f b = canonicalize f T) ∧
    decWith true f T = if canonical f T = true then dec f T else .badChar

/-- R128, which the spec marks as derived from R124: a decode that finds no bad character returns exactly 16 bytes; and it finds one exactly when some cell is outside
the alphabet, wherever it stands. -/
def Obligations.DecodeRejectsOrGivesSixteenBytes : Prop :=
  ∀ (f : Form) (T : List Cell), T.length = f.len →
    (dec f T = .badChar ↔ ¬ InAlphabet f T) ∧ (∀ b, dec f T = .bytes b → b.length = 16)

/-- The laws of the built-in codec (41_codec.md, Laws): decoding an encoding gives the buffer back, an encoding is canonical
and over the alphabet, encoding what a canonical text decodes to gives the text back, and encoding is injective. -/
def Obligations.BuiltinCodecReversible : Prop :=
  ∀ f : Form,
    (∀ B : List Byte, B.length = 16 →
      dec f (enc f B) = .bytes B ∧ InAlphabet f (enc f B) ∧ canonical f (enc f B) = true) ∧
    (∀ T : List Cell, canonical f T = true → ∃ b, dec f T = .bytes b ∧ enc f b = T) ∧
    ∀ B B' : List Byte, B.length = 16 → B'.length = 16 → enc f B = enc f B' → B = B'

/-- R120, R123: truncation keeps the first 22 or 26 cells, which for any number of padding cells behind the encoding is the
encoding itself, and drops only padding; the padded base-64 text has 24 cells. -/
def Obligations.TruncationDropsOnlyPadding : Prop :=
  (∀ P : List Cell, trunc .form64 P = P.take 22 ∧ trunc .form32 P = P.take 26) ∧
  ∀ (f : Form) (B : List Byte),
    (enc f B).length = f.len ∧
    (∀ n, trunc f (enc f B ++ List.replicate n Config.pad) = enc f B) ∧
    (∀ c ∈ (paddedText f B).drop f.len, c = 0x3D#8) ∧
    (paddedText .form64 B).length = 24

/-- The built-in mapper meets the contract the source gives for a codec (R111 to R113), in both configurations. -/
def Obligations.BuiltinMeetsCodecContract : Prop :=
  ∀ f : Form, (builtinCodec f).MeetsContract f

/-- Under the contract alone, whatever codec stands behind it, expanding a compact text gives the identifier back; and the
block's own operations are the ones through the built-in codec. -/
def Obligations.AnyContractCodecRoundTrips : Prop :=
  (∀ (c : Codec) (f : Form), c.MeetsContract f → ∀ hi lo : Word,
    expandThrough c f (compactThrough c f hi lo).text = wordsResponse hi lo) ∧
  (∀ (f : Form) (hi lo : Word), compactThrough (builtinCodec f) f hi lo = compact f hi lo) ∧
  ∀ (f : Form) (text : List Cell), expandThrough (builtinCodec f) f text = expand f text

/-- The byte-count test (R172 E7, R114): whatever codec is asked, a decode to a number of bytes other than 16 is answered
`FORMAT_ERROR`. -/
def Obligations.ByteCountOtherThanSixteenIsFormatError : Prop :=
  ∀ (c : Codec) (f : Form) (text : List Cell) (b : List Byte),
    c.decode (readText f text) = .bytes b → b.length ≠ 16 →
      expandThrough c f text = failureResponse .formatError 0x00#8

/-! ### The compact operations -/

/-- R140: `CMP64` completes in every state and for every pair; its response, cell by cell in bits of `V = hi ‖ lo` (the layout
of R81, which the spec marks as derived). -/
def Obligations.Cmp64Result : Prop :=
  ∀ (hi lo : Word) (s : State), ∃ r : Response,
    exec (.cmp64 hi lo) s = .next { s with responses := s.responses ++ [r] } ∧
    r.status = .ok ∧ r.olen = 22#8 ∧ r.elen = 0x00#8 ∧ r.hi = 0#64 ∧ r.lo = 0#64 ∧ r.text.length = 26 ∧
    (∀ k ≤ 20, r.text[k]? = some (alpha64 ((hi ++ lo : Ident).extractLsb' (122 - 6 * k) 6))) ∧
    r.text[21]? = some (alpha64 ((hi ++ lo : Ident).extractLsb' 0 2 ++ 0b0000#4)) ∧
    (∀ k, 22 ≤ k → k ≤ 25 → r.text[k]? = some 0x00#8)

/-- R141: `CMP32` completes in every state and for every pair; its response, cell by cell in bits of `V = hi ‖ lo` (the layout
of R82, which the spec marks as derived). -/
def Obligations.Cmp32Result : Prop :=
  ∀ (hi lo : Word) (s : State), ∃ r : Response,
    exec (.cmp32 hi lo) s = .next { s with responses := s.responses ++ [r] } ∧
    r.status = .ok ∧ r.olen = 26#8 ∧ r.elen = 0x00#8 ∧ r.hi = 0#64 ∧ r.lo = 0#64 ∧ r.text.length = 26 ∧
    (∀ k ≤ 24, r.text[k]? = some (alpha32 ((hi ++ lo : Ident).extractLsb' (123 - 5 * k) 5))) ∧
    r.text[25]? = some (alpha32 ((hi ++ lo : Ident).extractLsb' 0 3 ++ 0b00#2))

/-- R142, whose injectivity the spec marks as derived: the compact operations have a fixed length, are injective, depend on their operands alone, and write only
characters of their alphabet, never `PAD`, `+` or `/`. -/
def Obligations.CompactTextProperties : Prop :=
  (∀ (hi lo hi' lo' : Word) (s s' : State) (r r' : Response),
    exec (.cmp64 hi lo) s = .next { s with responses := s.responses ++ [r] } →
    exec (.cmp64 hi' lo') s' = .next { s' with responses := s'.responses ++ [r'] } →
      r.olen = 22#8 ∧ (r.text.take 22).length = 22 ∧
      (r.text.take 22 = r'.text.take 22 ↔ (hi = hi' ∧ lo = lo')) ∧
      (hi = hi' ∧ lo = lo' → r = r') ∧
      ∀ c ∈ r.text.take 22, inv64 c ≠ none ∧ c ∉ [Config.pad, 0x2B#8, 0x2F#8]) ∧
  (∀ (hi lo hi' lo' : Word) (s s' : State) (r r' : Response),
    exec (.cmp32 hi lo) s = .next { s with responses := s.responses ++ [r] } →
    exec (.cmp32 hi' lo') s' = .next { s' with responses := s'.responses ++ [r'] } →
      r.olen = 26#8 ∧ (r.text.take 26).length = 26 ∧
      (r.text.take 26 = r'.text.take 26 ↔ (hi = hi' ∧ lo = lo')) ∧
      (hi = hi' ∧ lo = lo' → r = r') ∧
      ∀ c ∈ r.text.take 26, inv32 c ≠ none ∧ c ∉ [Config.pad, 0x2B#8, 0x2F#8])

/-! ### The expand operations -/

/-- R150: `EXP64` in every case, in the order of its tests, whatever stands in the cells it does not read. A length other
than 22 is a `LENGTH_ERROR` with 22; a cell outside `ALPHA64` among the first 22 is a `DECODE_ERROR`; and on 22 cells over
`ALPHA64` it completes with the words read off the digits, the fill bits dropped (R125, which the spec marks as derived). -/
def Obligations.Exp64Result : Prop :=
  ∀ (tlen : Byte) (text : List Cell) (s : State),
    (tlen ≠ 22#8 → exec (.exp64 tlen text) s =
      .next { s with responses := s.responses ++ [failureResponse .lengthError 22#8] }) ∧
    (tlen = 22#8 → ∀ k < 22, ∀ c, text[k]? = some c → inv64 c = none → exec (.exp64 tlen text) s =
      .next { s with responses := s.responses ++ [failureResponse .decodeError 0x00#8] }) ∧
    (tlen = 22#8 → ∀ d : Nat → BitVec 6, (∀ k < 22, ∃ c, text[k]? = some c ∧ inv64 c = some (d k)) →
      ∃ hi lo : Word,
        exec (.exp64 tlen text) s = .next { s with responses := s.responses ++ [wordsResponse hi lo] } ∧
        (∀ k ≤ 20, (hi ++ lo : Ident).extractLsb' (122 - 6 * k) 6 = d k) ∧
        (hi ++ lo : Ident).extractLsb' 0 2 = (d 21).extractLsb' 4 2)

/-- R151: `EXP32` in every case, in the order of its tests. A length other than 26 is a `LENGTH_ERROR` with 26; a cell
outside `ALPHA32` is a `DECODE_ERROR`; and on 26 cells over `ALPHA32` it completes with the words read off the digits, the
fill bits dropped (R126, which the spec marks as derived). -/
def Obligations.Exp32Result : Prop :=
  ∀ (tlen : Byte) (text : List Cell) (s : State),
    (tlen ≠ 26#8 → exec (.exp32 tlen text) s =
      .next { s with responses := s.responses ++ [failureResponse .lengthError 26#8] }) ∧
    (tlen = 26#8 → ∀ k < 26, ∀ c, text[k]? = some c → inv32 c = none → exec (.exp32 tlen text) s =
      .next { s with responses := s.responses ++ [failureResponse .decodeError 0x00#8] }) ∧
    (tlen = 26#8 → ∀ d : Nat → BitVec 5, (∀ k < 26, ∃ c, text[k]? = some c ∧ inv32 c = some (d k)) →
      ∃ hi lo : Word,
        exec (.exp32 tlen text) s = .next { s with responses := s.responses ++ [wordsResponse hi lo] } ∧
        (∀ k ≤ 24, (hi ++ lo : Ident).extractLsb' (123 - 5 * k) 5 = d k) ∧
        (hi ++ lo : Ident).extractLsb' 0 3 = (d 25).extractLsb' 2 3)

/-- R152: `EXP` in every case. A length that is neither 22 nor 26 is a `FORMAT_ERROR`; at length 22 the cells are read as form
64, at length 26 as form 32: a cell outside that form's alphabet is a `DECODE_ERROR`, and a text over it completes with the
words read off the digits (R125, R126). -/
def Obligations.ExpResult : Prop :=
  ∀ (tlen : Byte) (text : List Cell) (s : State),
    (tlen ≠ 22#8 → tlen ≠ 26#8 → exec (.exp tlen text) s =
      .next { s with responses := s.responses ++ [failureResponse .formatError 0x00#8] }) ∧
    (tlen = 22#8 → ∀ k < 22, ∀ c, text[k]? = some c → inv64 c = none → exec (.exp tlen text) s =
      .next { s with responses := s.responses ++ [failureResponse .decodeError 0x00#8] }) ∧
    (tlen = 26#8 → ∀ k < 26, ∀ c, text[k]? = some c → inv32 c = none → exec (.exp tlen text) s =
      .next { s with responses := s.responses ++ [failureResponse .decodeError 0x00#8] }) ∧
    (tlen = 22#8 → ∀ d : Nat → BitVec 6, (∀ k < 22, ∃ c, text[k]? = some c ∧ inv64 c = some (d k)) →
      ∃ hi lo : Word,
        exec (.exp tlen text) s = .next { s with responses := s.responses ++ [wordsResponse hi lo] } ∧
        (∀ k ≤ 20, (hi ++ lo : Ident).extractLsb' (122 - 6 * k) 6 = d k) ∧
        (hi ++ lo : Ident).extractLsb' 0 2 = (d 21).extractLsb' 4 2) ∧
    (tlen = 26#8 → ∀ d : Nat → BitVec 5, (∀ k < 26, ∃ c, text[k]? = some c ∧ inv32 c = some (d k)) →
      ∃ hi lo : Word,
        exec (.exp tlen text) s = .next { s with responses := s.responses ++ [wordsResponse hi lo] } ∧
        (∀ k ≤ 24, (hi ++ lo : Ident).extractLsb' (123 - 5 * k) 5 = d k) ∧
        (hi ++ lo : Ident).extractLsb' 0 3 = (d 25).extractLsb' 2 3)

/-- R153, which the spec marks as derived from R150 to R152: `EXP` behaves as `EXP64` at length 22 and as `EXP32` at length 26; at every other length it answers
`FORMAT_ERROR` where they answer `LENGTH_ERROR` with 22 and 26. -/
def Obligations.DispatchEquivalences : Prop :=
  ∀ (tlen : Byte) (text : List Cell) (s : State),
    (tlen = 22#8 → exec (.exp tlen text) s = exec (.exp64 tlen text) s) ∧
    (tlen = 26#8 → exec (.exp tlen text) s = exec (.exp32 tlen text) s) ∧
    (tlen ≠ 22#8 → tlen ≠ 26#8 →
      exec (.exp tlen text) s = .next { s with responses := s.responses ++ [failureResponse .formatError 0x00#8] } ∧
      exec (.exp64 tlen text) s = .next { s with responses := s.responses ++ [failureResponse .lengthError 22#8] } ∧
      exec (.exp32 tlen text) s = .next { s with responses := s.responses ++ [failureResponse .lengthError 26#8] })

/-- R154, which the spec marks as derived: for all 2^128 pairs, the response of a compact operation fed back into the expand operation of its form and into
`EXP` gives the pair back; fed into the expand operation of the other form it fails on length. -/
def Obligations.RoundTrips : Prop :=
  ∀ (hi lo : Word) (s s' : State),
    (∃ r, exec (.cmp64 hi lo) s = .next { s with responses := s.responses ++ [r] } ∧
      exec (feedBack .exp64 r) s' = .next { s' with responses := s'.responses ++ [wordsResponse hi lo] } ∧
      exec (feedBack .exp r) s' = .next { s' with responses := s'.responses ++ [wordsResponse hi lo] } ∧
      exec (feedBack .exp32 r) s' =
        .next { s' with responses := s'.responses ++ [failureResponse .lengthError 26#8] }) ∧
    (∃ r, exec (.cmp32 hi lo) s = .next { s with responses := s.responses ++ [r] } ∧
      exec (feedBack .exp32 r) s' = .next { s' with responses := s'.responses ++ [wordsResponse hi lo] } ∧
      exec (feedBack .exp r) s' = .next { s' with responses := s'.responses ++ [wordsResponse hi lo] } ∧
      exec (feedBack .exp64 r) s' =
        .next { s' with responses := s'.responses ++ [failureResponse .lengthError 22#8] })

/-- Compacting what an accepted text expands to gives the canonical text, which differs from the text at most in its last
cell (the consequence in R127; program P4 of 95_test_vectors.md). -/
def Obligations.ExpandThenCompactNormalises : Prop :=
  ∀ (f : Form) (T : List Cell), T.length = f.len → InAlphabet f T →
    ∃ hi lo : Word, expand f T = wordsResponse hi lo ∧
      (compact f hi lo).text.take f.len = canonicalize f T

/-! ### Errors -/

/-- R175: the status of every response, as the order of the tests gives it: the opcode, then the length, then the alphabet
over the cells the length selects; the byte count, tested last, never fails with the built-in codec. -/
def Obligations.StatusByPriority : Prop :=
  ∀ (q : RequestFrame) (r : Response), answer q = some r →
    r.status =
      if reqOp q = 0x01#8 ∨ reqOp q = 0x02#8 then .ok
      else if reqOp q = 0x05#8 then
        if reqTlen q ≠ 22#8 then .lengthError
        else if InAlphabet .form64 ((reqText q).take 22) then .ok else .decodeError
      else if reqOp q = 0x06#8 then
        if reqTlen q ≠ 26#8 then .lengthError
        else if InAlphabet .form32 ((reqText q).take 26) then .ok else .decodeError
      else if reqOp q = 0x04#8 then
        if reqTlen q = 22#8 then
          if InAlphabet .form64 ((reqText q).take 22) then .ok else .decodeError
        else if reqTlen q = 26#8 then
          if InAlphabet .form32 ((reqText q).take 26) then .ok else .decodeError
        else .formatError
      else .illegalOp

/-- R176: a response that is not `OK` carries no partial result: every data field is zero and `elen` is the required length
for `LENGTH_ERROR` (22 from `EXP64`, 26 from `EXP32`), 0 otherwise; the failing operation changes nothing else. -/
def Obligations.ErrorResponsesCarryNothing : Prop :=
  ∀ (s : State) (q : RequestFrame) (rest : List RequestFrame) (r : Response),
    s.queue = q :: rest → answer q = some r → r.status ≠ .ok →
      step s = .next { queue := rest, responses := s.responses ++ [r] } ∧
      (r = failureResponse r.status 0x00#8 ∧ r.status ≠ .lengthError ∨
        r = failureResponse .lengthError 22#8 ∧ reqOp q = 0x05#8 ∨
        r = failureResponse .lengthError 26#8 ∧ reqOp q = 0x06#8)

/-! ### The machine -/

/-- A step takes the oldest request in flight and runs the instruction it decodes to. -/
def Obligations.StepRunsDecodedInstruction : Prop :=
  ∀ (s : State) (q : RequestFrame) (rest : List RequestFrame) (i : Instr),
    s.queue = q :: rest → decode q = .instr i → step s = exec i { s with queue := rest }

/-- With nothing in flight a step changes nothing, and the state at rest, no request in flight and no response unread, is the
reset state and no other (R207). That an idle step is a step is the model's choice (log entry 3). -/
def Obligations.StepAtRestChangesNothing : Prop :=
  ∀ s : State, (s.queue = [] → step s = .next s) ∧ (s.AtRest ↔ s = State.reset)

/-- A word placed for the next step is decoded and executed by it, for every row of the table and in every state. Where a word
is placed is the model's choice (log entry 4). -/
def Obligations.PlacedWordRunsNext : Prop :=
  ∀ (s : State) (nbits w : Nat) (i : Instr), decodeTableWord nbits w = some i →
    step (s.withFetchWord nbits w) = exec i { s with queue := s.queue.tail }

/-- R16, R20, R204: the response to a request is a function of that request alone; each request gets exactly one, the oldest
first, behind the responses already given, whatever was executed before. -/
def Obligations.EachRequestGetsItsOwnAnswer : Prop :=
  (∀ q : RequestFrame, ∃ r, answer q = some r) ∧
  ∀ (s : State) (q : RequestFrame) (rest : List RequestFrame) (r : Response),
    s.queue = q :: rest → answer q = some r →
      step s = .next { queue := rest, responses := s.responses ++ [r] }

/-- Every accepted request is answered, in order, in as many steps as there are requests, and the block is then at rest
(R201, R204, R207, R208). -/
def Obligations.QueueDrainsInOrder : Prop :=
  ∀ s : State, ∃ rs : List Response,
    rs.map some = s.queue.map answer ∧
    Host.Core.run core s.queue.length s = .next { queue := [], responses := s.responses ++ rs }

/-- What an operation leaves alone (all five): the requests in flight, the responses already given, their order, and the
constant outputs; it adds one response. The block has no other state, no registers and no memory (R20, R23 to R27). -/
def Obligations.OperationFrame : Prop :=
  ∀ (i : Instr) (s t : State), exec i s = .next t →
    t.queue = s.queue ∧ (∃ r, t.responses = s.responses ++ [r]) ∧
    ∀ c : ConstReg, t.constOut c = s.constOut c

/-- No step faults or is refused: from every state every run is safe. That nothing stops the block is the model's reading of
R172, R66 and R201 (log entry 8, DEDUCED), and that a step with nothing in flight answers a next state is the model's choice
(log entry 3, DESIGN CHOICE). -/
def Obligations.EveryRunIsSafe : Prop :=
  ∀ (s : State) (k : Nat), SafeRun s k

/-- Every step keeps the invariant: at most `QDEPTH` requests in flight, and every response on the port is one of those the
block may give (R28, R61, R65, R68, R172, R176). -/
def Obligations.StepKeepsInvariant : Prop :=
  ∀ s t : State, s.Inv → step s = .next t → t.Inv

/-- The invariant holds after reset. -/
def Obligations.InvariantAtReset : Prop := State.reset.Inv

/-- What the outside may do between two steps keeps the invariant too: presenting a request, taking a response, reset (R200,
R204, R206; the ports as data are the model's choice, log entry 1). -/
def Obligations.HostKeepsInvariant : Prop :=
  ∀ s : State, s.Inv →
    (∀ q t, s.present q = some t → t.Inv) ∧
    (∀ r t, s.takeResponse = some (r, t) → t.Inv) ∧
    s.assertReset.Inv

/-- R200: after reset the queue is empty, no response is pending and the constant outputs have their values, whatever was in
flight before. -/
def Obligations.ResetDropsEverything : Prop :=
  ∀ s : State, s.assertReset = State.reset ∧ State.reset.queue = [] ∧ State.reset.responses = [] ∧
    State.reset.constOut .c64len = 22#8 ∧ State.reset.constOut .c32len = 26#8

/-- R22: `C64LEN` reads 22 and `C32LEN` reads 26 in every state. -/
def Obligations.ConstantOutputs : Prop :=
  ∀ s : State, s.constOut .c64len = 0x16#8 ∧ s.constOut .c32len = 0x1A#8

/-- A request is accepted exactly when fewer than `QDEPTH` are in flight, at the end of the queue; at least one can be
(R28, R8 `QDEPTH`). What `QDEPTH` is beyond that is open (log entry 2), and that a request at a full queue is stalled and not
lost is the model's choice (log entry 1). -/
def Obligations.PresentAcceptsBelowDepth : Prop :=
  1 ≤ Config.qdepth ∧
  ∀ (s : State) (q : RequestFrame),
    (s.queue.length < Config.qdepth → s.present q = some { s with queue := s.queue ++ [q] }) ∧
    (Config.qdepth ≤ s.queue.length → s.present q = none)

/-! ### The host's side -/

/-- R69: saturating the length changes no outcome: however a text of `n` characters is presented, an expand operation answers
the length error when `n` is not a length it takes, and a text of 22 or 26 characters is seen with that length. -/
def Obligations.PresentedLengthDecides : Prop :=
  ∀ (chars : List Nat) (tlen : Byte) (text : List Cell) (s : State), Presents chars tlen text →
    (chars.length ≠ 22 → exec (.exp64 tlen text) s =
      .next { s with responses := s.responses ++ [failureResponse .lengthError 22#8] }) ∧
    (chars.length ≠ 26 → exec (.exp32 tlen text) s =
      .next { s with responses := s.responses ++ [failureResponse .lengthError 26#8] }) ∧
    (chars.length ≠ 22 → chars.length ≠ 26 → exec (.exp tlen text) s =
      .next { s with responses := s.responses ++ [failureResponse .formatError 0x00#8] }) ∧
    (chars.length = 22 → tlen = 22#8) ∧ (chars.length = 26 → tlen = 26#8)

/-- R70: a character whose code does not fit in 8 bits, presented as 0xFF, makes the text rejected. -/
def Obligations.WideCharactersRejected : Prop :=
  ∀ (chars : List Nat) (tlen : Byte) (text : List Cell) (s : State) (k code : Nat),
    Presents chars tlen text → chars[k]? = some code → 256 ≤ code →
    (chars.length = 22 → ∀ i ∈ [Instr.exp64 tlen text, Instr.exp tlen text],
      exec i s = .next { s with responses := s.responses ++ [failureResponse .decodeError 0x00#8] }) ∧
    (chars.length = 26 → ∀ i ∈ [Instr.exp32 tlen text, Instr.exp tlen text],
      exec i s = .next { s with responses := s.responses ++ [failureResponse .decodeError 0x00#8] })

/-- R173: the messages the host renders, for the errors the block answers and for any input text. -/
def Obligations.HostMessages : Prop :=
  ∀ input : List Char,
    renderMessage (failureResponse .lengthError 22#8) input =
      some "Expecting a compact uuid string of length 22".toList ∧
    renderMessage (failureResponse .lengthError 26#8) input =
      some "Expecting a compact uuid string of length 26".toList ∧
    renderMessage (failureResponse .formatError 0x00#8) input =
      some ("Not a compact uuid string: ".toList ++ input) ∧
    renderMessage (failureResponse .decodeError 0x00#8) input =
      some ("Not a compact uuid string: ".toList ++ input) ∧
    renderMessage (failureResponse .illegalOp 0x00#8) input = none

/-- R91: the fields of the frame of a request line: the words as given with `tlen` and the text zero, or the saturated length
and the cells of the text with the words zero; and a frame is printed as 88 hexadecimal digits, a response frame as 90, that
read as its number, most significant digit first. -/
def Obligations.AssembledFramesAndPrinting : Prop :=
  (∀ hi lo : Word, ∀ l ∈ [AsmLine.cmp64 hi lo, AsmLine.cmp32 hi lo],
    reqHi l.frame = hi ∧ reqLo l.frame = lo ∧ reqTlen l.frame = 0x00#8 ∧
      reqText l.frame = List.replicate 26 0x00#8) ∧
  (∀ cells : List Cell, ∀ l ∈ [AsmLine.exp64 cells, AsmLine.exp32 cells, AsmLine.exp cells],
    reqHi l.frame = 0#64 ∧ reqLo l.frame = 0#64 ∧ (reqTlen l.frame).toNat = min cells.length 255 ∧
      (∀ k < 26, (reqText l.frame)[k]? = some (cells.getD k 0x00#8))) ∧
  (∀ (hi lo : Word) (cells : List Cell),
    reqOp (AsmLine.cmp64 hi lo).frame = 0x01#8 ∧ reqOp (AsmLine.cmp32 hi lo).frame = 0x02#8 ∧
    reqOp (AsmLine.exp cells).frame = 0x04#8 ∧ reqOp (AsmLine.exp64 cells).frame = 0x05#8 ∧
    reqOp (AsmLine.exp32 cells).frame = 0x06#8) ∧
  (∀ q : RequestFrame, (printRequest q).length = 88 ∧ numeral? 16 (printRequest q) = some q.toNat) ∧
  (∀ w : ResponseFrame, (printResponseFrame w).length = 90 ∧ numeral? 16 (printResponseFrame w) = some w.toNat)

/-- The pseudo-operations (30_encoding.md, the table of pseudo-operations): the value-type ones issue the operation on the
value's words; the text ones issue it on the words the parser reads, or raise `FormatError` on the host and issue nothing when
the parser rejects the text. Which texts the parser accepts is open (log entry 7) and the statement holds whatever it is; the
words of two canonical texts of 95_test_vectors.md (V-CMP) are given. -/
def Obligations.PseudoOperationsExpand : Prop :=
  (∀ hi lo : Word, (PseudoOp.cmp64v hi lo).expand = .issue (.cmp64 hi lo) ∧
    (PseudoOp.cmp32v hi lo).expand = .issue (.cmp32 hi lo)) ∧
  (∀ t : List Char,
    (PseudoOp.cmp64u t).expand = (if Config.uuidParserAccepts t then
      HostAction.issue (.cmp64 ((readCanonical t).getD (Config.uuidParserOther t)).1
        ((readCanonical t).getD (Config.uuidParserOther t)).2) else .raiseFormatError) ∧
    (PseudoOp.cmp32u t).expand = (if Config.uuidParserAccepts t then
      HostAction.issue (.cmp32 ((readCanonical t).getD (Config.uuidParserOther t)).1
        ((readCanonical t).getD (Config.uuidParserOther t)).2) else .raiseFormatError)) ∧
  readCanonical "123e4567-e89b-12d3-a456-426614174000".toList =
    some (0x123E4567E89B12D3#64, 0xA456426614174000#64) ∧
  readCanonical "550e8400-e29b-41d4-a716-446655440000".toList =
    some (0x550E8400E29B41D4#64, 0xA716446655440000#64)

/-! ### The end of a run -/

/-- R207: whatever is in flight and whatever stands unread, once every request in flight is answered and the host has read
every response, it has read the responses already given and then the answers of the requests in their order, the run is over,
and the state is the reset state. -/
def Obligations.RunEndsInResetState : Prop :=
  ∀ s : State, ∃ (rs : List Response) (t e : State),
    rs.map some = s.queue.map answer ∧
    Host.Core.run core s.queue.length s = .next t ∧
    t.takeResponses (s.responses.length + s.queue.length) = some (s.responses ++ rs, e) ∧
    e.AtRest ∧ e = State.reset
end

