-- ==== Sys2Proof/Laws/Bits.lean ====
section
/-! SUPPORT. What cutting a value into chunks and joining chunks can do: bit by bit, chunk by chunk, and that the
two undo each other. Packing, unpacking, digits and text fields all rest on these. -/

namespace Sys2Proof.Machine

open Sys2Proof

@[simp] theorem splitChunks_length {w : Nat} (c n : Nat) (v : BitVec w) :
    (splitChunks c n v).length = n := by simp [splitChunks]

theorem splitChunks_getElem? {w : Nat} (c n : Nat) (v : BitVec w) {k : Nat} (h : k < n) :
    (splitChunks c n v)[k]? = some (v.extractLsb' (c * (n - 1 - k)) c) := by
  simp [splitChunks, h]

theorem joinChunks_snoc {c : Nat} (w : Nat) (ds : List (BitVec c)) (d : BitVec c) :
    joinChunks w (ds ++ [d]) = (joinChunks w ds <<< c) ||| d.setWidth w := by
  simp [joinChunks]

/-- Bit `i` of the join is bit `i % c` of the chunk `i / c`, counted from the last. -/
theorem joinChunks_getLsbD {c : Nat} (hc : 0 < c) (w : Nat) (ds : List (BitVec c)) (i : Nat) :
    (joinChunks w ds).getLsbD i =
      (decide (i < w) && (ds.reverse.getD (i / c) 0#c).getLsbD (i % c)) := by
  induction ds using List.reverseRecOn generalizing i with
  | nil => simp [joinChunks]
  | append_singleton ds d ih =>
    rw [joinChunks_snoc, BitVec.getLsbD_or, BitVec.getLsbD_shiftLeft, BitVec.getLsbD_setWidth, ih,
      List.reverse_append]
    by_cases hic : i < c
    · simp [hic, Nat.div_eq_of_lt hic, Nat.mod_eq_of_lt hic]
    · have hge : c ≤ i := Nat.le_of_not_lt hic
      have hdiv : i / c = (i - c) / c + 1 := by
        rw [Nat.div_eq_sub_div hc hge]
      have hmod : i % c = (i - c) % c := Nat.mod_eq_sub_mod hge
      have hd : d.getLsbD i = false := BitVec.getLsbD_of_ge d i hge
      have hlt : i < w → i - c < w := fun h => by omega
      by_cases hw : i < w
      · simp [hic, hw, hlt hw, hdiv, hmod, hd]
      · simp [hw]

/-- Joining the chunks of a value gives it back. -/
theorem joinChunks_splitChunks {c n w : Nat} (hc : 0 < c) (hw : w = c * n) (v : BitVec w) :
    joinChunks w (splitChunks c n v) = v := by
  apply BitVec.eq_of_getLsbD_eq
  intro i hi
  have hq : i / c < n := by
    rw [Nat.div_lt_iff_lt_mul hc, Nat.mul_comm]; omega
  have hm : i % c < c := Nat.mod_lt _ hc
  have hidx : n - 1 - (n - 1 - i / c) = i / c := by generalize i / c = m at hq ⊢; omega
  rw [joinChunks_getLsbD hc, List.getD_eq_getElem?_getD, List.getElem?_reverse (by simpa using hq),
    splitChunks_length, splitChunks_getElem? _ _ _ (by omega)]
  simp [hi, hm, hidx, Nat.div_add_mod]

/-- Cutting joined chunks gives them back. -/
theorem splitChunks_joinChunks {c n w : Nat} (hc : 0 < c) (hw : w = c * n) (ds : List (BitVec c))
    (hn : ds.length = n) : splitChunks c n (joinChunks w ds) = ds := by
  apply List.ext_getElem?
  intro k
  by_cases hk : k < n
  · rw [splitChunks_getElem? _ _ _ hk, List.getElem?_eq_getElem (by omega)]
    congr 1
    apply BitVec.eq_of_getLsbD_eq
    intro j hj
    have hlt : c * (n - 1 - k) + j < w := by
      have : c * (n - 1 - k) + c ≤ c * n := by
        rw [← Nat.mul_succ]; exact Nat.mul_le_mul_left c (by omega)
      omega
    have hdiv : (c * (n - 1 - k) + j) / c = n - 1 - k := by
      rw [Nat.mul_add_div hc, Nat.div_eq_of_lt hj]; omega
    have hmod : (c * (n - 1 - k) + j) % c = j := by
      rw [Nat.mul_add_mod, Nat.mod_eq_of_lt hj]
    have hidx : ds.length - 1 - (n - 1 - k) = k := by omega
    rw [BitVec.getLsbD_extractLsb', joinChunks_getLsbD hc, hdiv, hmod, List.getD_eq_getElem?_getD,
      List.getElem?_reverse (by omega), hidx, List.getElem?_eq_getElem (by omega)]
    simp [hj, hlt]
  · rw [List.getElem?_eq_none (by simpa using hk), List.getElem?_eq_none (by omega)]

@[simp] theorem bitsToText_length (t : TextBits) : (bitsToText t).length = 26 := by simp [bitsToText]

/-- A text field is its cells, last cell most significant. -/
theorem bitsToText_eq_splitChunks (t : TextBits) : bitsToText t = (splitChunks 8 26 t).reverse := by
  apply List.ext_getElem?
  intro k
  by_cases hk : k < 26
  · have hidx : 26 - 1 - (26 - 1 - k) = k := by omega
    rw [List.getElem?_reverse (by simpa using hk), splitChunks_length,
      splitChunks_getElem? _ _ _ (by omega), hidx]
    simp [bitsToText, hk]
  · rw [List.getElem?_eq_none (by simpa using hk), List.getElem?_eq_none (by simpa using hk)]

theorem bitsToText_textToBits (text : List Cell) (h : text.length = 26) :
    bitsToText (textToBits text) = text := by
  rw [bitsToText_eq_splitChunks, textToBits,
    splitChunks_joinChunks (by decide) (by decide) _ (by simpa using h), List.reverse_reverse]

theorem textToBits_bitsToText (t : TextBits) : textToBits (bitsToText t) = t := by
  rw [bitsToText_eq_splitChunks, textToBits, List.reverse_reverse,
    joinChunks_splitChunks (by decide) (by decide)]

end Sys2Proof.Machine
end

