-- ==== Sys2Proof/Laws/Codec.lean ====
section
/-! SUPPORT. One lemma for each thing the buffer accesses, the alphabets and the codec stage can do. -/

namespace Sys2Proof.Machine

open Sys2Proof

/-! ### The byte buffer -/

theorem memWrite_length (B : List Byte) (a n : Nat) (v : BitVec (8 * n)) (h : a + n ≤ B.length) :
    (memWrite B a n v).length = B.length := by
  simp [memWrite]; omega

/-- `MemRead` reads back what `MemWrite` wrote to the same cells. -/
theorem memRead_memWrite_same (B : List Byte) (a n : Nat) (v : BitVec (8 * n)) (h : a + n ≤ B.length) :
    memRead (memWrite B a n v) a n = v := by
  have ha : (B.take a).length = a := by simp; omega
  have hd : (memWrite B a n v).drop a = splitChunks 8 n v ++ B.drop (a + n) := by
    rw [memWrite, List.append_assoc, List.drop_append_of_le_length (by omega),
      List.drop_of_length_le (by omega), List.nil_append]
  rw [memRead, hd, List.take_append_of_le_length (by simp), List.take_of_length_le (by simp),
    joinChunks_splitChunks (by decide) rfl]

/-- A write leaves every cell outside the written ones alone. -/
theorem memWrite_getElem?_outside (B : List Byte) (a n : Nat) (v : BitVec (8 * n)) (h : a + n ≤ B.length)
    {i : Nat} (hi : i < a ∨ a + n ≤ i) : (memWrite B a n v)[i]? = B[i]? := by
  have ha : (B.take a).length = a := by simp; omega
  unfold memWrite
  rcases hi with hi | hi
  · rw [List.append_assoc, List.getElem?_append_left (by omega), List.getElem?_take_of_lt hi]
  · rw [List.getElem?_append_right (by simp; omega), List.getElem?_drop]
    congr 1
    simp; omega

/-- The buffer of a pair of words: the bytes of `hi`, then the bytes of `lo` (R100). -/
theorem pack_eq (hi lo : Word) : pack hi lo = splitChunks 8 8 hi ++ splitChunks 8 8 lo := by
  simp [pack, memWrite, freshBuffer, Config.bufLen]

@[simp] theorem pack_length (hi lo : Word) : (pack hi lo).length = 16 := by simp [pack_eq]

/-- What the unpacker reads: the first eight and the last eight bytes, each joined unsigned (R102). -/
theorem unpack_eq (B : List Byte) :
    unpack B = (joinChunks 64 (B.take 8), joinChunks 64 ((B.drop 8).take 8)) := rfl

/-- The bits of a packed buffer are `V = hi ‖ lo` (R41). -/
theorem joinChunks_pack (hi lo : Word) : joinChunks 128 (pack hi lo) = hi ++ lo := by
  have h : pack hi lo = splitChunks 8 16 (hi ++ lo) := by
    rw [pack_eq]
    apply List.ext_getElem?
    intro k
    by_cases hk : k < 16
    · rw [splitChunks_getElem? _ _ _ hk]
      by_cases hk8 : k < 8
      · rw [List.getElem?_append_left (by simpa using hk8), splitChunks_getElem? _ _ _ hk8,
          BitVec.extractLsb'_append_eq_of_le (by omega)]
        congr 2
        omega
      · rw [List.getElem?_append_right (by simp; omega), splitChunks_length,
          splitChunks_getElem? _ _ _ (by omega), BitVec.extractLsb'_append_eq_of_add_le (by omega)]
        congr 2
        omega
    · rw [List.getElem?_eq_none (by simp; omega), List.getElem?_eq_none (by simp; omega)]
  rw [h, joinChunks_splitChunks (by decide) (by decide)]

/-- Unpacking the 16 bytes of a 128-bit value gives its two halves (R102). -/
theorem unpack_splitChunks (V : Ident) :
    unpack (splitChunks 8 16 V) = (V.extractLsb' 64 64, V.extractLsb' 0 64) := by
  have h : splitChunks 8 16 V = pack (V.extractLsb' 64 64) (V.extractLsb' 0 64) := by
    have hV : (V.extractLsb' 64 64 ++ V.extractLsb' 0 64 : Ident) = V := by
      apply BitVec.eq_of_getLsbD_eq
      intro i hi
      refine BitVec.getLsbD_append.trans ?_
      by_cases h64 : i < 64
      · simp [h64]
      · simp [h64, show i - 64 < 64 by omega, show 64 + (i - 64) = i by omega]
    conv_lhs => rw [← hV, ← joinChunks_pack]
    exact splitChunks_joinChunks (by decide) (by decide) _ (pack_length _ _)
  rw [h, unpack_eq, pack_eq]
  simp [joinChunks_splitChunks (c := 8) (n := 8) (w := 64) (by decide) (by decide), List.take_of_length_le]

/-! ### The alphabets -/

theorem inv_alpha (f : Form) (v : BitVec f.width) : inv f (alpha f v) = some v := by
  cases f
  · exact (by decide : ∀ v : BitVec 6, inv64 (alpha64 v) = some v) v
  · exact (by decide : ∀ v : BitVec 5, inv32 (alpha32 v) = some v) v

set_option maxRecDepth 8000 in
theorem alpha_of_inv64 : ∀ c : Cell, ∀ v, inv64 c = some v → alpha64 v = c := by
  decide

set_option maxRecDepth 8000 in
theorem alpha_of_inv32 : ∀ c : Cell, ∀ v, inv32 c = some v → alpha32 v = c := by
  decide

theorem alpha_of_inv {f : Form} {c : Cell} {v : BitVec f.width} (h : inv f c = some v) : alpha f v = c := by
  cases f
  · exact alpha_of_inv64 c v h
  · exact alpha_of_inv32 c v h

theorem inv_eq_some_iff {f : Form} {c : Cell} {v : BitVec f.width} : inv f c = some v ↔ c = alpha f v :=
  ⟨fun h => (alpha_of_inv h).symm, fun h => h ▸ inv_alpha f v⟩

/-! ### Texts and digits -/

@[simp] theorem digits_length (f : Form) (B : List Byte) : (digits f B).length = f.len := by simp [digits]

@[simp] theorem enc_length (f : Form) (B : List Byte) : (enc f B).length = f.len := by simp [enc]

theorem textDigits_map_alpha (f : Form) (ds : List (BitVec f.width)) :
    textDigits f (ds.map (alpha f)) = some ds := by
  induction ds with
  | nil => rfl
  | cons d ds ih => simp [textDigits, inv_alpha, ih]

/-- A text has digits `ds` exactly when it is written with them. -/
theorem textDigits_eq_some_iff {f : Form} {T : List Cell} {ds : List (BitVec f.width)} :
    textDigits f T = some ds ↔ T = ds.map (alpha f) := by
  constructor
  · intro h
    induction T generalizing ds with
    | nil => cases h; rfl
    | cons c cs ih =>
      rw [textDigits] at h
      split at h
      · rename_i d ds' hd hds
        cases h
        rw [List.map_cons, ← ih hds, alpha_of_inv hd]
      · cases h
  · rintro rfl
    exact textDigits_map_alpha f ds

/-- A text has no digits exactly when some cell of it is outside the alphabet. -/
theorem textDigits_eq_none_iff {f : Form} {T : List Cell} :
    textDigits f T = none ↔ ∃ c ∈ T, inv f c = none := by
  induction T with
  | nil => simp [textDigits]
  | cons c cs ih =>
    rw [textDigits]
    cases hc : inv f c with
    | none => simp [hc]
    | some d =>
      cases hcs : textDigits f cs with
      | none => simpa [hc] using ih.mp hcs
      | some ds =>
        have : ¬ ∃ c ∈ cs, inv f c = none := fun h => by simp [ih.mpr h] at hcs
        simpa [hc] using this

theorem textDigits_length {f : Form} {T : List Cell} {ds : List (BitVec f.width)}
    (h : textDigits f T = some ds) : ds.length = T.length := by
  rw [textDigits_eq_some_iff.mp h, List.length_map]

theorem textDigits_enc (f : Form) (B : List Byte) : textDigits f (enc f B) = some (digits f B) :=
  textDigits_map_alpha f _

/-- `W * N = 128 + FILL` (R116). -/
theorem width_mul_len (f : Form) : 128 + f.fill = f.width * f.len := by cases f <;> rfl

theorem width_pos (f : Form) : 0 < f.width := by cases f <;> decide

/-- The digits of a buffer joined again are its 128 bits and the fill zeros. -/
theorem joinDigits_digits (f : Form) (B : List Byte) :
    joinDigits f (digits f B) = joinChunks 128 B ++ 0#f.fill :=
  joinChunks_splitChunks (width_pos f) (width_mul_len f) _

/-- `DEC` of this hardware: a bad character if there is one, else the 16 bytes of the digits (R124, R127). -/
theorem dec_eq (f : Form) (T : List Cell) :
    dec f T = match textDigits f T with
      | none => .badChar
      | some ds => .bytes (digitBytes f ds) := by
  unfold dec decWith
  cases textDigits f T <;> simp [Config.strictFill]

@[simp] theorem digitBytes_length (f : Form) (ds : List (BitVec f.width)) :
    (digitBytes f ds).length = 16 := by simp [digitBytes]

/-- The digits of a 16-byte buffer decode to its bytes. -/
theorem digitBytes_digits (f : Form) (B : List Byte) (h : B.length = 16) :
    digitBytes f (digits f B) = B := by
  have hx : (joinChunks 128 B ++ 0#f.fill).extractLsb' f.fill 128 = joinChunks 128 B := by
    apply BitVec.eq_of_getLsbD_eq
    intro i hi
    simp [BitVec.getLsbD_append, hi]
  rw [digitBytes, joinDigits_digits, hx, splitChunks_joinChunks (by decide) (by decide) _ h]

/-- The identifier that a digit vector stands for: its bits above the fill bits (R125, R126). -/
theorem unpack_digitBytes (f : Form) (ds : List (BitVec f.width)) :
    unpack (digitBytes f ds) =
      (((joinDigits f ds).extractLsb' f.fill 128).extractLsb' 64 64,
       ((joinDigits f ds).extractLsb' f.fill 128).extractLsb' 0 64) := by
  rw [digitBytes]
  exact unpack_splitChunks _

/-- A digit stands in the joined digits where R116 cuts it out. -/
theorem extract_joinDigits (f : Form) (ds : List (BitVec f.width)) (h : ds.length = f.len)
    {k : Nat} (hk : k < f.len) :
    ds[k]? = some ((joinDigits f ds).extractLsb' (f.width * (f.len - 1 - k)) f.width) := by
  have hs := splitChunks_joinChunks (width_pos f) (width_mul_len f) ds h
  rw [← splitChunks_getElem? f.width f.len _ hk]
  exact congrArg (fun l => l[k]?) hs.symm

/-- The fill bits of a digit vector are the low bits of its last digit (R83, R127). -/
theorem fillBits_eq_of_getLast? (f : Form) (ds : List (BitVec f.width)) (h : ds.length = f.len)
    {d : BitVec f.width} (hd : ds.getLast? = some d) : fillBits f ds = d.extractLsb' 0 f.fill := by
  rw [List.getLast?_eq_getElem?, h, extract_joinDigits f ds h (by cases f <;> decide), Option.some.injEq] at hd
  rw [← hd, fillBits]
  apply BitVec.eq_of_getLsbD_eq
  intro i hi
  have hw : i < f.width := by cases f <;> (simp only [Form.fill, Form.width] at hi ⊢; omega)
  simp [hi, hw]

/-- The fill bits of an encoding are zero (R116). -/
theorem fillBits_digits (f : Form) (B : List Byte) : fillBits f (digits f B) = 0#f.fill := by
  rw [fillBits, joinDigits_digits]
  apply BitVec.eq_of_getLsbD_eq
  intro i hi
  rw [BitVec.getLsbD_extractLsb', Nat.zero_add, decide_eq_true hi, Bool.true_and]
  refine BitVec.getLsbD_append.trans ?_
  rw [if_pos hi]

/-! ### The operands -/

@[simp] theorem readText_length (f : Form) (text : List Cell) : (readText f text).length = f.len := by
  simp [readText]

/-- On a text field of 26 cells an expand operation reads the first `LEN(f)` of them. -/
theorem readText_eq_take (f : Form) (text : List Cell) (h : text.length = 26) :
    readText f text = text.take f.len := by
  have hle : f.len ≤ text.length := by rw [h]; cases f <;> decide
  apply List.ext_getElem?
  intro k
  by_cases hk : k < f.len
  · have hr : k < (readText f text).length := by simpa using hk
    rw [List.getElem?_take_of_lt hk, List.getElem?_eq_getElem hr]
    simp [readText, textCell, List.getD_eq_getElem?_getD, List.getElem?_eq_getElem (show k < text.length by omega)]
  · rw [List.getElem?_eq_none (by simpa using hk), List.getElem?_eq_none (by simp; omega)]

end Sys2Proof.Machine
end

