-- ==== Sys2Proof/Laws/Decode.lean ====
section
/-! SUPPORT. The fields of a frame put together from its fields, and the cases of the decoder, said once. -/

namespace Sys2Proof

open Sys2Proof.Machine

@[simp] theorem blankText_length : blankText.length = 26 := by decide

@[simp] theorem reqText_length (q : RequestFrame) : (reqText q).length = 26 := by simp [reqText]

theorem reqOp_requestFrame (op tlen : Byte) (hi lo : Word) (text : List Cell) :
    reqOp (requestFrame op tlen hi lo text) = op := by
  apply BitVec.eq_of_getLsbD_eq
  intro i h
  rw [reqOp, BitVec.getLsbD_extractLsb', decide_eq_true h, Bool.true_and, requestFrame]
  refine BitVec.getLsbD_append.trans ?_
  rw [if_pos (by omega), Nat.zero_add]

theorem reqTlen_requestFrame (op tlen : Byte) (hi lo : Word) (text : List Cell) :
    reqTlen (requestFrame op tlen hi lo text) = tlen := by
  apply BitVec.eq_of_getLsbD_eq
  intro i h
  rw [reqTlen, BitVec.getLsbD_extractLsb', decide_eq_true h, Bool.true_and, requestFrame]
  refine BitVec.getLsbD_append.trans ?_
  rw [if_neg (by omega)]
  refine BitVec.getLsbD_append.trans ?_
  rw [if_pos (by omega)]
  congr 1
  omega

theorem reqLo_requestFrame (op tlen : Byte) (hi lo : Word) (text : List Cell) :
    reqLo (requestFrame op tlen hi lo text) = lo := by
  apply BitVec.eq_of_getLsbD_eq
  intro i h
  rw [reqLo, BitVec.getLsbD_extractLsb', decide_eq_true h, Bool.true_and, requestFrame]
  refine BitVec.getLsbD_append.trans ?_
  rw [if_neg (by omega)]
  refine BitVec.getLsbD_append.trans ?_
  rw [if_neg (by omega)]
  refine BitVec.getLsbD_append.trans ?_
  rw [if_pos (by omega)]
  congr 1
  omega

theorem reqHi_requestFrame (op tlen : Byte) (hi lo : Word) (text : List Cell) :
    reqHi (requestFrame op tlen hi lo text) = hi := by
  apply BitVec.eq_of_getLsbD_eq
  intro i h
  rw [reqHi, BitVec.getLsbD_extractLsb', decide_eq_true h, Bool.true_and, requestFrame]
  refine BitVec.getLsbD_append.trans ?_
  rw [if_neg (by omega)]
  refine BitVec.getLsbD_append.trans ?_
  rw [if_neg (by omega)]
  refine BitVec.getLsbD_append.trans ?_
  rw [if_neg (by omega)]
  refine BitVec.getLsbD_append.trans ?_
  rw [if_pos (by omega)]
  congr 1
  omega

theorem reqText_requestFrame (op tlen : Byte) (hi lo : Word) (text : List Cell) (hlen : text.length = 26) :
    reqText (requestFrame op tlen hi lo text) = text := by
  have ht : (requestFrame op tlen hi lo text).extractLsb' 144 208 = textToBits text := by
    apply BitVec.eq_of_getLsbD_eq
    intro i h
    rw [BitVec.getLsbD_extractLsb', decide_eq_true h, Bool.true_and, requestFrame]
    refine BitVec.getLsbD_append.trans ?_
    rw [if_neg (by omega)]
    refine BitVec.getLsbD_append.trans ?_
    rw [if_neg (by omega)]
    refine BitVec.getLsbD_append.trans ?_
    rw [if_neg (by omega)]
    refine BitVec.getLsbD_append.trans ?_
    rw [if_neg (by omega)]
    exact congrArg (textToBits text).getLsbD (by omega)
  rw [reqText, ht, bitsToText_textToBits _ hlen]

/-- The five cases in which the decoder accepts a frame (R63). -/
theorem decode_eq_instr {q : RequestFrame} {i : Instr} (h : decode q = .instr i) :
    (reqOp q = 0x01#8 ∧ i = .cmp64 (reqHi q) (reqLo q)) ∨
    (reqOp q = 0x02#8 ∧ i = .cmp32 (reqHi q) (reqLo q)) ∨
    (reqOp q = 0x04#8 ∧ i = .exp (reqTlen q) (reqText q)) ∨
    (reqOp q = 0x05#8 ∧ i = .exp64 (reqTlen q) (reqText q)) ∨
    (reqOp q = 0x06#8 ∧ i = .exp32 (reqTlen q) (reqText q)) := by
  unfold decode at h
  by_cases h1 : reqOp q = opCmp64
  · rw [if_pos h1] at h
    cases h
    exact .inl ⟨h1, rfl⟩
  rw [if_neg h1] at h
  by_cases h2 : reqOp q = opCmp32
  · rw [if_pos h2] at h
    cases h
    exact .inr (.inl ⟨h2, rfl⟩)
  rw [if_neg h2] at h
  by_cases h4 : reqOp q = opExp
  · rw [if_pos h4] at h
    cases h
    exact .inr (.inr (.inl ⟨h4, rfl⟩))
  rw [if_neg h4] at h
  by_cases h5 : reqOp q = opExp64
  · rw [if_pos h5] at h
    cases h
    exact .inr (.inr (.inr (.inl ⟨h5, rfl⟩)))
  rw [if_neg h5] at h
  by_cases h6 : reqOp q = opExp32
  · rw [if_pos h6] at h
    cases h
    exact .inr (.inr (.inr (.inr ⟨h6, rfl⟩)))
  rw [if_neg h6] at h
  cases h

/-- An opcode that is none of the five is rejected (R66). -/
theorem decode_of_not_mem {q : RequestFrame} (h : reqOp q ∉ [0x01#8, 0x02#8, 0x04#8, 0x05#8, 0x06#8]) :
    decode q = .illegalOp (reqOp q) := by
  simp only [List.mem_cons, List.not_mem_nil, or_false, not_or] at h
  simp [decode, opCmp64, opCmp32, opExp, opExp64, opExp32, h]

/-- One of the five opcodes is accepted (R63). -/
theorem decode_of_mem {q : RequestFrame} (h : reqOp q ∈ [0x01#8, 0x02#8, 0x04#8, 0x05#8, 0x06#8]) :
    ∃ i, decode q = .instr i := by
  simp only [List.mem_cons, List.not_mem_nil, or_false] at h
  rcases h with h | h | h | h | h <;>
    simp [decode, opCmp64, opCmp32, opExp, opExp64, opExp32, h]

end Sys2Proof
end

