-- ==== Sys2Proof/Laws/PerInstr.lean ====
section
/-! SUPPORT. The family `OpcodeField`: what the frame of an instruction carries in its `op` field, and that the two
field readings of the opcode, direction and form (30_encoding.md R63, R64), are those of the instruction. One lemma
for each constructor. -/

namespace Sys2Proof.Laws.OpcodeField

open Sys2Proof Sys2Proof.Machine

/-- The `op` field of the encoding is the instruction's opcode; its bit 2 is the direction and its bits 1:0 are the
form, 01 for form 64, 10 for form 32 and 00 for "by length" (R63, R64). -/
def Statement (i : Instr) : Prop :=
  reqOp (encode i) = i.opcode ∧
  i.opcode.getLsbD 2 = isExpand i ∧
  i.opcode.extractLsb' 0 2 = (match fixedForm i with
    | some .form64 => 0b01#2
    | some .form32 => 0b10#2
    | none => 0b00#2)

theorem cmp64 (hi lo : Word) : Statement (.cmp64 hi lo) :=
  ⟨reqOp_requestFrame _ _ _ _ _, by simp [Instr.opcode, isExpand, opCmp64],
    by simp [Instr.opcode, fixedForm, opCmp64]⟩

theorem cmp32 (hi lo : Word) : Statement (.cmp32 hi lo) :=
  ⟨reqOp_requestFrame _ _ _ _ _, by simp [Instr.opcode, isExpand, opCmp32],
    by simp [Instr.opcode, fixedForm, opCmp32]⟩

theorem exp (tlen : Byte) (text : List Cell) : Statement (.exp tlen text) :=
  ⟨reqOp_requestFrame _ _ _ _ _, by simp [Instr.opcode, isExpand, opExp],
    by simp [Instr.opcode, fixedForm, opExp]⟩

theorem exp64 (tlen : Byte) (text : List Cell) : Statement (.exp64 tlen text) :=
  ⟨reqOp_requestFrame _ _ _ _ _, by simp [Instr.opcode, isExpand, opExp64],
    by simp [Instr.opcode, fixedForm, opExp64]⟩

theorem exp32 (tlen : Byte) (text : List Cell) : Statement (.exp32 tlen text) :=
  ⟨reqOp_requestFrame _ _ _ _ _, by simp [Instr.opcode, isExpand, opExp32],
    by simp [Instr.opcode, fixedForm, opExp32]⟩

end Sys2Proof.Laws.OpcodeField
end

