-- ==== Sys2Proof/Laws/State.lean ====
section
/-! SUPPORT. What each update of the state and of a response does to each field; true by definition. -/

namespace Sys2Proof.Machine

open Sys2Proof

@[simp] theorem State.reset_queue : State.reset.queue = [] := rfl
@[simp] theorem State.reset_responses : State.reset.responses = [] := rfl

@[simp] theorem State.give_queue (r : Response) (s : State) : (s.give r).queue = s.queue := rfl
@[simp] theorem State.give_responses (r : Response) (s : State) :
    (s.give r).responses = s.responses ++ [r] := rfl

@[simp] theorem State.raise_queue (e : ErrorClass) (s : State) : (s.raise e).queue = s.queue := rfl
@[simp] theorem State.raise_responses (e : ErrorClass) (s : State) :
    (s.raise e).responses = s.responses ++ [errorResponse e] := rfl

@[simp] theorem State.placeRequest_queue (q : RequestFrame) (s : State) :
    (s.placeRequest q).queue = q :: s.queue.tail := rfl
@[simp] theorem State.placeRequest_responses (q : RequestFrame) (s : State) :
    (s.placeRequest q).responses = s.responses := rfl

@[simp] theorem State.takeResponse_nil (queue : List RequestFrame) :
    ({ queue := queue, responses := [] } : State).takeResponse = none := rfl
@[simp] theorem State.takeResponse_cons (queue : List RequestFrame) (r : Response) (rest : List Response) :
    ({ queue := queue, responses := r :: rest } : State).takeResponse =
      some (r, { queue := queue, responses := rest }) := rfl

/-- Taking as many responses as stand on the port takes them all, in order, and leaves the requests alone. -/
theorem State.takeResponses_all (queue : List RequestFrame) (rs : List Response) :
    ({ queue := queue, responses := rs } : State).takeResponses rs.length =
      some (rs, { queue := queue, responses := [] }) := by
  induction rs with
  | nil => rfl
  | cons r rs ih => simp [State.takeResponses, ih]

@[simp] theorem State.assertReset_eq (s : State) : s.assertReset = State.reset := rfl

@[simp] theorem errorResponse_status (e : ErrorClass) : (errorResponse e).status = e.status := rfl
@[simp] theorem errorResponse_elen (e : ErrorClass) : (errorResponse e).elen = e.info := rfl
@[simp] theorem errorResponse_olen (e : ErrorClass) : (errorResponse e).olen = 0#8 := rfl
@[simp] theorem errorResponse_hi (e : ErrorClass) : (errorResponse e).hi = 0#64 := rfl
@[simp] theorem errorResponse_lo (e : ErrorClass) : (errorResponse e).lo = 0#64 := rfl
@[simp] theorem errorResponse_text (e : ErrorClass) : (errorResponse e).text = blankText := rfl

@[simp] theorem compactResponse_status (f : Form) (T : List Cell) : (compactResponse f T).status = .ok := rfl
@[simp] theorem compactResponse_olen (f : Form) (T : List Cell) : (compactResponse f T).olen = f.lenByte := rfl
@[simp] theorem compactResponse_elen (f : Form) (T : List Cell) : (compactResponse f T).elen = 0#8 := rfl
@[simp] theorem compactResponse_hi (f : Form) (T : List Cell) : (compactResponse f T).hi = 0#64 := rfl
@[simp] theorem compactResponse_lo (f : Form) (T : List Cell) : (compactResponse f T).lo = 0#64 := rfl
@[simp] theorem compactResponse_text (f : Form) (T : List Cell) :
    (compactResponse f T).text = T ++ List.replicate (Config.textCells - f.len) 0x00#8 := rfl

@[simp] theorem expandResponse_status (hi lo : Word) : (expandResponse hi lo).status = .ok := rfl
@[simp] theorem expandResponse_olen (hi lo : Word) : (expandResponse hi lo).olen = 0#8 := rfl
@[simp] theorem expandResponse_elen (hi lo : Word) : (expandResponse hi lo).elen = 0#8 := rfl
@[simp] theorem expandResponse_hi (hi lo : Word) : (expandResponse hi lo).hi = hi := rfl
@[simp] theorem expandResponse_lo (hi lo : Word) : (expandResponse hi lo).lo = lo := rfl
@[simp] theorem expandResponse_text (hi lo : Word) : (expandResponse hi lo).text = blankText := rfl

end Sys2Proof.Machine
end

