-- ==== Sys2Proof/Laws/Step.lean ====
section
/-! SUPPORT. What an operation and a step can do, said once: an operation gives exactly one response, that of its
operands, and a step takes the oldest request and gives its response. -/

namespace Sys2Proof.Machine

open Sys2Proof

/-- The response of an operation: a function of its operands, with no state in it (R20). -/
def responseOf : Instr → Response
  | .cmp64 hi lo => compact .form64 hi lo
  | .cmp32 hi lo => compact .form32 hi lo
  | .exp tlen text =>
    match formOfLength tlen with
    | some f => expand f text
    | none => errorResponse .formatError
  | .exp64 tlen text => if tlen = 22#8 then expand .form64 text else errorResponse (.lengthError 22#8)
  | .exp32 tlen text => if tlen = 26#8 then expand .form32 text else errorResponse (.lengthError 26#8)

/-- The response to what a frame decodes to (R16, R66). -/
def responseOfDecoded : Decoded → Response
  | .instr i => responseOf i
  | .illegalOp _ => errorResponse .illegalOp

/-- Every operation ends in a next state with its response given and nothing else changed. -/
theorem exec_eq (i : Instr) (s : State) : exec i s = .next (s.give (responseOf i)) := by
  cases i with
  | cmp64 hi lo => rfl
  | cmp32 hi lo => rfl
  | exp tlen text =>
    simp only [exec, execExp, responseOf]
    cases formOfLength tlen <;> rfl
  | exp64 tlen text =>
    simp only [exec, execExp64, expandExactly, responseOf, Form.lenByte]
    split <;> rfl
  | exp32 tlen text =>
    simp only [exec, execExp32, expandExactly, responseOf, Form.lenByte]
    split <;> rfl

/-- A step with a request in flight answers the oldest one. -/
theorem step_of_queue_cons {s : State} {q : RequestFrame} {rest : List RequestFrame}
    (h : s.queue = q :: rest) :
    step s = .next { queue := rest, responses := s.responses ++ [responseOfDecoded (decode q)] } := by
  simp only [step, State.takeRequest, h]
  cases hd : decode q with
  | instr i => simp only [exec_eq, responseOfDecoded]; rfl
  | illegalOp op => rfl

/-- A step with nothing in flight changes nothing. -/
theorem step_of_queue_nil {s : State} (h : s.queue = []) : step s = .next s := by
  simp only [step, State.takeRequest, h]

/-- The function `F` of R16. -/
theorem answer_eq (q : RequestFrame) : answer q = some (responseOfDecoded (decode q)) := by
  simp [answer, step_of_queue_cons (s := { queue := [q], responses := [] }) rfl]

/-- What an expand routine answers: a decode error when some cell it reads is outside the alphabet, else the words of the
digits. The byte-count test never fails (R128). -/
theorem expand_eq (f : Form) (text : List Cell) :
    expand f text = match textDigits f (readText f text) with
      | none => errorResponse .decodeError
      | some ds => expandResponse (unpack (digitBytes f ds)).1 (unpack (digitBytes f ds)).2 := by
  rw [expand, dec_eq]
  cases textDigits f (readText f text) with
  | none => rfl
  | some ds => simp [finishExpand, expandOutcome, Config.bufLen]

/-- A run goes on from the next state, for any machine. -/
theorem run_succ_of_step {M : Host.Core} {s t : M.State} (h : M.step s = .next t) (k : Nat) :
    M.run (k + 1) s = M.run k t := by
  simp only [Host.Core.run, h]

/-- A run of this machine goes on from the state its step answers. -/
theorem core_run_succ {s t : State} (h : step s = .next t) (k : Nat) :
    Host.Core.run core (k + 1) s = Host.Core.run core k t :=
  run_succ_of_step (M := core) (s := s) (t := t) h k

end Sys2Proof.Machine
end

