-- ==== Sys2Proof/Tests/Slice0.lean ====
section
/-! SUPPORT. The model's own tests. Frames and texts are copied from spec/95_test_vectors.md, whose table is named beside
each test; the words of the decode tests are written out from the field table of 30_encoding.md R60. The `witness_`
theorems show, for each statement with hypotheses, a state and operands that meet them, at the ends of each clause's
range. -/

namespace Sys2Proof.Tests

set_option Elab.async false

open Sys2Proof Sys2Proof.Machine

/-- The cells of an ASCII string. -/
def cells (t : String) : List Cell := t.toList.map fun c => BitVec.ofNat 8 c.toNat

/-- A text field that begins with the string, the other cells 0x00 (R90). -/
def field (t : String) : List Cell := cells t ++ List.replicate (26 - t.length) 0x00#8

/-- The response frame that the first step after reset gives for a request frame. -/
def answerFrame (w : Nat) : Option ResponseFrame :=
  match step (State.reset.withFetchWord 352 w) with
  | .next s => s.responses.head?.map Response.toFrame
  | _ => none

/-- A state with one request in flight and one response not yet taken. -/
def busy (q : RequestFrame) : State := { queue := [q], responses := [expandResponse 1#64 2#64] }

/-! ### Well-formedness: each check refuses an ill-formed term -/

theorem test_wellFormed_cmp : (Instr.cmp64 1#64 2#64).wellFormed = true ∧ (Instr.cmp32 1#64 2#64).wellFormed = true := by
  decide +kernel
theorem test_wellFormed_exp_25_cells : (Instr.exp 22#8 (List.replicate 25 0x41#8)).wellFormed = false := by decide +kernel
theorem test_wellFormed_exp64_27_cells : (Instr.exp64 22#8 (List.replicate 27 0x41#8)).wellFormed = false := by decide +kernel
theorem test_wellFormed_exp32_no_cells : (Instr.exp32 26#8 []).wellFormed = false := by decide +kernel
theorem test_wellFormed_any_length : (Instr.exp32 255#8 (List.replicate 26 0xFF#8)).wellFormed = true := by decide +kernel

/-! ### Decoding: one word a constructor, its fields laid out bit by bit (R60: `op` [7:0], `tlen` [15:8], `lo` [79:16],
`hi` [143:80], cell `k` [151+8k:144+8k]) -/

theorem test_decode_cmp64 :
    decode (BitVec.ofNat 352 (0x01 + 0x77 * 2 ^ 8 + 0x8000000000000001 * 2 ^ 16 + 0x4000000000000002 * 2 ^ 80)) =
      .instr (.cmp64 0x4000000000000002#64 0x8000000000000001#64) := by decide +kernel
theorem test_decode_cmp32 :
    decode (BitVec.ofNat 352 (0x02 + 0x8000000000000001 * 2 ^ 16 + 0x4000000000000002 * 2 ^ 80 + 0x2A * 2 ^ 144)) =
      .instr (.cmp32 0x4000000000000002#64 0x8000000000000001#64) := by decide +kernel
theorem test_decode_exp :
    decode (BitVec.ofNat 352 (0x04 + 0x16 * 2 ^ 8 + 0x42 * 2 ^ 144 + 0x43 * 2 ^ 152 + 0x5A * 2 ^ 344)) =
      .instr (.exp 22#8 ([0x42#8, 0x43#8] ++ List.replicate 23 0x00#8 ++ [0x5A#8])) := by decide +kernel
theorem test_decode_exp64 :
    decode (BitVec.ofNat 352 (0x05 + 0xFF * 2 ^ 8 + 1 * 2 ^ 16 + 1 * 2 ^ 80 + 0x80 * 2 ^ 144)) =
      .instr (.exp64 255#8 (0x80#8 :: List.replicate 25 0x00#8)) := by decide +kernel
theorem test_decode_exp32 :
    decode (BitVec.ofNat 352 (0x06 + 0x1A * 2 ^ 8 + 0x37 * 2 ^ 312)) =
      .instr (.exp32 26#8 (List.replicate 21 0x00#8 ++ [0x37#8] ++ List.replicate 4 0x00#8)) := by decide +kernel
/-- V-ILL. -/
theorem test_decode_illegal : ∀ op ∈ [0x00#8, 0x03#8, 0x07#8, 0x08#8, 0x10#8, 0x41#8, 0x81#8, 0xFF#8],
    decode (requestFrame op 22#8 0x1111111111111111#64 0x2222222222222222#64 (field "ABEiM0RVZneImaq7zN3u_w")) =
      .illegalOp op := by decide +kernel
theorem test_decodeTableWord :
    decodeTableWord 8 0x01 = some (.cmp64 0#64 0#64) ∧
    decodeTableWord 8 0x03 = none ∧
    decodeTableWord 16 0x1A06 = some (.exp32 26#8 blankText) ∧
    decodeTableWord 360 0x01 = none := by decide +kernel

/-! ### Steps: whole frames in and out (V-IND, V-FRAME and the programs P2 to P4) -/

theorem test_cmp64_unread_fields_set :
    answerFrame 0xFFFFFFFFFFFFFFFFFFFFFFFFFFFFFFFFFFFFFFFFFFFFFFFFFFFF00112233445566778899AABBCCDDEEFF9901 =
      some 0x00000000775F75334E7A3771616D49656E5A5652304D6945424100000000000000000000000000000000001600#360 := by decide +kernel
theorem test_cmp64_minLong_maxLong :
    answerFrame 0x000000000000000000000000000000000000000000000000000080000000000000007FFFFFFFFFFFFFFF0001 =
      some 0x00000000775F5F5F5F5F5F5F5F5F5F424141414141414141416700000000000000000000000000000000001600#360 := by decide +kernel
theorem test_cmp32_unread_fields_set :
    answerFrame 0xFFFFFFFFFFFFFFFFFFFFFFFFFFFFFFFFFFFFFFFFFFFFFFFFFFFF00112233445566778899AABBCCDDEEFF9902 =
      some 0x34374F50585A34354B565A4543504854564B45324D455349414100000000000000000000000000000000001A00#360 := by decide +kernel
theorem test_cmp32_mixed :
    answerFrame 0x0000000000000000000000000000000000000000000000000000DEADBEEFCAFEBABE0123456789ABCDEF0002 =
      some 0x34354E364B5459545649444A41344C3532374B3633353357323300000000000000000000000000000000001A00#360 := by decide +kernel
theorem test_exp64_fill_bits_dropped :
    answerFrame 0x0000000042414141414141414141412D5F5F5F5F5F5F5F5F5F66000000000000000000000000000000001605 =
      some 0x00000000000000000000000000000000000000000000000000007FFFFFFFFFFFFFFF8000000000000000000000#360 := by decide +kernel
theorem test_exp64_length_21 :
    answerFrame 0x00000000775F75334E7A3771616D49656E5A5652304D69454241000000000000000000000000000000001505 =
      some 0x000000000000000000000000000000000000000000000000000000000000000000000000000000000000160001#360 := by decide +kernel
theorem test_exp32_frame :
    answerFrame 0x34374F50585A34354B565A4543504854564B45324D4553494141000000000000000000000000000000001A06 =
      some 0x000000000000000000000000000000000000000000000000000000112233445566778899AABBCCDDEEFF000000#360 := by decide +kernel
theorem test_exp32_lower_case :
    answerFrame 0x6137373737373737373737373741414141414141414141414151000000000000000000000000000000001A06 =
      some 0x000000000000000000000000000000000000000000000000000000000000000000000000000000000000000003#360 := by decide +kernel
theorem test_exp_takes_form32_by_length :
    answerFrame 0x3437373737373737373737373741414141414141414141414151000000000000000000000000000000001A04 =
      some 0x000000000000000000000000000000000000000000000000000080000000000000007FFFFFFFFFFFFFFF000000#360 := by decide +kernel
theorem test_exp_takes_form64_with_junk :
    answerFrame 0x2A2A2A2A775F75334E7A3771616D49656E5A5652304D69454241DEADBEEFDEADBEEFFFFFFFFFFFFFFFFF1604 =
      some 0x000000000000000000000000000000000000000000000000000000112233445566778899AABBCCDDEEFF000000#360 := by decide +kernel
theorem test_illegal_op :
    answerFrame 0x00000000775F75334E7A3771616D49656E5A5652304D694542411111111111111111222222222222222216FF =
      some 0x000000000000000000000000000000000000000000000000000000000000000000000000000000000000000004#360 := by decide +kernel

/-! ### The stages (V-PACK, V-UNPACK, V-DIGITS) -/

theorem test_pack : pack 0x8000000000000000#64 0x7FFFFFFFFFFFFFFF#64 =
    [0x80#8, 0#8, 0#8, 0#8, 0#8, 0#8, 0#8, 0#8, 0x7F#8, 0xFF#8, 0xFF#8, 0xFF#8, 0xFF#8, 0xFF#8, 0xFF#8, 0xFF#8] := by
  decide +kernel
theorem test_unpack_unsigned :
    unpack [0#8, 0#8, 0#8, 0#8, 0#8, 0#8, 0#8, 0x80#8, 0#8, 0#8, 0#8, 0#8, 0#8, 0#8, 0#8, 0xFF#8] =
      (0x0000000000000080#64, 0x00000000000000FF#64) := by decide +kernel
theorem test_digits64 : (digits .form64 (pack 0x0011223344556677#64 0x8899AABBCCDDEEFF#64)).map BitVec.toNat =
    [0, 1, 4, 34, 12, 52, 17, 21, 25, 39, 30, 8, 38, 26, 42, 59, 51, 13, 55, 46, 63, 48] := by decide +kernel
theorem test_digits32 : (digits .form32 (pack 0x0011223344556677#64 0x8899AABBCCDDEEFF#64)).map BitVec.toNat =
    [0, 0, 8, 18, 4, 12, 26, 4, 10, 21, 19, 7, 15, 2, 4, 25, 21, 10, 29, 28, 25, 23, 15, 14, 31, 28] := by decide +kernel

/-! ### The host's side (S3, P3, V-FRAME) -/

theorem test_message_length : renderMessage (errorResponse (.lengthError 22#8)) "abc".toList =
    some "Expecting a compact uuid string of length 22".toList := by decide +kernel
theorem test_message_format : renderMessage (errorResponse .formatError) "abc".toList =
    some "Not a compact uuid string: abc".toList := by decide +kernel
theorem test_assemble_cmp64 : parseLine? "CMP64 minLong, maxLong   ; comment".toList =
    some (.cmp64 0x8000000000000000#64 0x7FFFFFFFFFFFFFFF#64) := by decide +kernel
theorem test_assemble_exp :
    (parseLine? ("EXP ".toList ++ [Char.ofNat 0x22] ++ "ABEiM0RVZneImaq7zN3u_*".toList ++ [Char.ofNat 0x22])).map
      AsmLine.frame =
    some 0x000000002A5F75334E7A3771616D49656E5A5652304D69454241000000000000000000000000000000001604#352 := by decide +kernel
theorem test_assemble_literals : literal? "-1".toList = some 0xFFFFFFFFFFFFFFFF#64 ∧
    literal? "-9223372036854775808".toList = some minLong ∧ literal? "-9223372036854775809".toList = none ∧
    literal? "18446744073709551615".toList = some 0xFFFFFFFFFFFFFFFF#64 ∧
    literal? "18446744073709551616".toList = none ∧ literal? "0x10".toList = some 16#64 := by decide +kernel
theorem test_assemble_300_characters : (AsmLine.exp (List.replicate 300 0x41#8)).instr =
    .exp 255#8 (List.replicate 26 0x41#8) := by decide +kernel
theorem test_print_response : printResponse (expandResponse 0x0011223344556677#64 0x8899AABBCCDDEEFF#64) =
    "-> OK hi=0x0011223344556677 lo=0x8899AABBCCDDEEFF".toList ∧
    printResponse (errorResponse (.lengthError 22#8)) = "-> LENGTH_ERROR elen=22".toList := by decide +kernel

/-! ### Witnesses: encoding -/

/-- DecodeReadsFrameFields, IllegalOpcodesAnswered: all six clauses, the rejected opcodes at their ends. -/
theorem witness_opcodes : ∀ op : Byte, reqOp (requestFrame op 0#8 0#64 0#64 blankText) = op ∧
    (requestFrame op 0#8 0#64 0#64 blankText).extractLsb' 0 8 = op :=
  fun op => ⟨reqOp_requestFrame op _ _ _ _, reqOp_requestFrame op _ _ _ _⟩

theorem witness_rejected_opcodes : ∀ op ∈ [0x00#8, 0x03#8, 0x07#8, 0xFF#8],
    op ∉ [0x01#8, 0x02#8, 0x04#8, 0x05#8, 0x06#8] := by decide +kernel

/-- IllegalOpcodesAnswered, StepRunsDecodedInstruction, EachRequestGetsItsOwnAnswer, ErrorResponsesCarryNothing. -/
theorem witness_busy_queue (q : RequestFrame) : (busy q).queue = q :: [] := rfl

/-- DecodeOfEncode. -/
theorem witness_wellFormed : ∀ i ∈ [Instr.cmp64 1#64 2#64, .cmp32 1#64 2#64, .exp 26#8 (field "AAAA"),
    .exp64 0#8 blankText, .exp32 255#8 (List.replicate 26 0xFF#8)], i.wellFormed = true := by decide +kernel

/-- DecodedIsWellFormedAndReencodes, OpcodeFieldsAgreeWithTable, StepRunsDecodedInstruction. -/
theorem witness_decoded :
    decode 0x3437373737373737373737373741414141414141414141414151000000000000000000000000000000001A06#352 =
      .instr (.exp32 26#8 (cells "QAAAAAAAAAAAA7777777777774")) := by decide +kernel

/-- UnreadFieldsHaveNoEffect, `CMP64` (V-IND): the frames differ in `tlen` and every cell. -/
theorem witness_same_cmp64 : SameReadFields
    0x000000000000000000000000000000000000000000000000000000112233445566778899AABBCCDDEEFF0001#352
    0xFFFFFFFFFFFFFFFFFFFFFFFFFFFFFFFFFFFFFFFFFFFFFFFFFFFF00112233445566778899AABBCCDDEEFF9901#352 := by
  refine ⟨?_, ?_, ?_, ?_, ?_⟩ <;> decide +kernel

/-- UnreadFieldsHaveNoEffect, `CMP32` (V-IND). -/
theorem witness_same_cmp32 : SameReadFields
    0x000000000000000000000000000000000000000000000000000000112233445566778899AABBCCDDEEFF0002#352
    0xFFFFFFFFFFFFFFFFFFFFFFFFFFFFFFFFFFFFFFFFFFFFFFFFFFFF00112233445566778899AABBCCDDEEFF9902#352 := by
  refine ⟨?_, ?_, ?_, ?_, ?_⟩ <;> decide +kernel

/-- UnreadFieldsHaveNoEffect, `EXP64` at length 22 (V-IND): the frames differ in cells 22 to 25 and in the words. -/
theorem witness_same_exp64 : SameReadFields
    0x00000000775F75334E7A3771616D49656E5A5652304D69454241000000000000000000000000000000001605#352
    0x2A2A2A2A775F75334E7A3771616D49656E5A5652304D69454241DEADBEEFDEADBEEFFFFFFFFFFFFFFFFF1605#352 := by
  refine ⟨?_, ?_, ?_, ?_, ?_⟩ <;> decide +kernel

/-- UnreadFieldsHaveNoEffect, `EXP` at length 22 (V-IND). -/
theorem witness_same_exp_22 : SameReadFields
    0x00000000775F75334E7A3771616D49656E5A5652304D69454241000000000000000000000000000000001604#352
    0x2A2A2A2A775F75334E7A3771616D49656E5A5652304D69454241DEADBEEFDEADBEEFFFFFFFFFFFFFFFFF1604#352 := by
  refine ⟨?_, ?_, ?_, ?_, ?_⟩ <;> decide +kernel

/-- UnreadFieldsHaveNoEffect, `EXP` at length 26: the frames differ in the words only. -/
theorem witness_same_exp_26 : SameReadFields
    0x3437373737373737373737373741414141414141414141414151000000000000000000000000000000001A04#352
    0x3437373737373737373737373741414141414141414141414151DEADBEEFDEADBEEFFFFFFFFFFFFFFFFF1A04#352 := by
  refine ⟨?_, ?_, ?_, ?_, ?_⟩ <;> decide +kernel

/-- UnreadFieldsHaveNoEffect, `EXP32` at length 26: the frames differ in the words only. -/
theorem witness_same_exp32 : SameReadFields
    0x3437373737373737373737373741414141414141414141414151000000000000000000000000000000001A06#352
    0x3437373737373737373737373741414141414141414141414151DEADBEEFDEADBEEFFFFFFFFFFFFFFFFF1A06#352 := by
  refine ⟨?_, ?_, ?_, ?_, ?_⟩ <;> decide +kernel

/-- UnreadFieldsHaveNoEffect, a length no operation takes, and an opcode that is no operation: nothing else is read. -/
theorem witness_same_nothing_read : SameReadFields
    0x41414141414141414141414141414141414141414141414141410000000000000000FFFFFFFFFFFFFFFF1705#352
    0x00000000000000000000000000000000000000000000000000000000000000010000000000000000000000001705#352 ∧
    SameReadFields 0x03#352
    0xFFFFFFFFFFFFFFFFFFFFFFFFFFFFFFFFFFFFFFFFFFFFFFFFFFFF00112233445566778899AABBCCDDEEFF9903#352 := by
  refine ⟨⟨?_, ?_, ?_, ?_, ?_⟩, ?_, ?_, ?_, ?_, ?_⟩ <;> decide +kernel

/-- ResponseFrameLayout: 26 cells, the first and the last of them. -/
theorem witness_response_cells : (compact .form32 1#64 3#64).text.length = 26 ∧
    (compact .form32 1#64 3#64).text[0]? = some 0x41#8 ∧ (compact .form32 1#64 3#64).text[25]? = some 0x4D#8 := by decide +kernel

/-- StatusCodesAndFramesReadBack, PaddingNeverInOrOut, StatusByPriority: an answer of each operation. -/
theorem witness_answers (op : Byte) :
    ∃ r, answer (requestFrame op 22#8 1#64 2#64 (field "ABEiM0RVZneImaq7zN3u_w")) = some r := ⟨_, answer_eq _⟩

/-- StatusByPriority: each branch, the two sides of each test. -/
theorem witness_statuses : ∀ p ∈ [(opCmp64, 0#8, "", Status.ok), (opCmp32, 22#8, "*", .ok),
      (opExp64, 21#8, "*********************", .lengthError), (opExp64, 23#8, "", .lengthError),
      (opExp64, 22#8, "ABEiM0RVZneImaq7zN3u_w", .ok), (opExp64, 22#8, "ABEiM0RVZneImaq7zN3u_*", .decodeError),
      (opExp32, 25#8, "", .lengthError), (opExp32, 26#8, "AAISEM2EKVTHPCEZVK54ZXPO74", .ok),
      (opExp32, 26#8, "AAISEM2EKVTHPCEZVK54ZXPO7*", .decodeError), (opExp, 22#8, "ABEiM0RVZneImaq7zN3u_w", .ok),
      (opExp, 22#8, "*BEiM0RVZneImaq7zN3u_w", .decodeError), (opExp, 26#8, "AAISEM2EKVTHPCEZVK54ZXPO74", .ok),
      (opExp, 26#8, "AAAAAAAAAAAAAAAAAAAAAAAAA9", .decodeError), (opExp, 27#8, "", .formatError),
      (0x00#8, 22#8, "", .illegalOp)],
    (answer (requestFrame p.1 p.2.1 1#64 2#64 (field p.2.2.1))).map Response.status = some p.2.2.2 := by decide +kernel

/-! ### Witnesses: buffer, alphabets, codec -/

/-- UnpackIsUnsigned, PackUnpackInverse, BuiltinCodecReversible, BuiltinMeetsCodecContract: buffers of 16 cells. -/
theorem witness_buffers : freshBuffer.length = 16 ∧ (List.replicate 16 0xFF#8).length = 16 ∧
    enc .form64 freshBuffer ≠ enc .form64 (List.replicate 16 0xFF#8) := by decide +kernel

/-- BufferAccesses: the accesses at 0 and at 8, each outside the other. -/
theorem witness_accesses : 0 + 8 ≤ freshBuffer.length ∧ 8 + 8 ≤ freshBuffer.length ∧ (0 + 8 ≤ 8 ∨ 8 + 8 ≤ 0) ∧
    (8 + 8 ≤ 0 ∨ 0 + 8 ≤ 8) := by decide +kernel

/-- Alphabet64ClosedForm, Alphabet32ClosedForm: the ends of every range (V-DIGITS, R76, R78). -/
theorem witness_alphabet_ends :
    [0#6, 25#6, 26#6, 51#6, 52#6, 61#6, 62#6, 63#6].map alpha64 = cells "AZaz09-_" ∧
    [0#5, 25#5, 26#5, 31#5].map alpha32 = cells "AZ27" := by decide +kernel

/-- Inverse64IsExact, Inverse32IsExact. -/
theorem witness_inverse : inv64 0x41#8 = some 0#6 ∧ inv64 0x5F#8 = some 63#6 ∧ inv32 0x37#8 = some 31#5 ∧
    0x80 ≤ (0x80#8 : Cell).toNat ∧ 0x80 ≤ (0xFF#8 : Cell).toNat ∧
    0x61 ≤ (0x61#8 : Cell).toNat ∧ (0x7A#8 : Cell).toNat ≤ 0x7A := by decide +kernel

/-- PaddingNeverInOrOut: `PAD` in the first and in the last cell read, for either length. -/
theorem witness_pad_cells :
    (field "=AAAAAAAAAAAAAAAAAAAAA")[0]? = some Config.pad ∧ (field "AAAAAAAAAAAAAAAAAAAAA=")[21]? = some Config.pad ∧
    (field "AAAAAAAAAAAAAAAAAAAAAAAAA=")[25]? = some Config.pad := by decide +kernel

/-- CanonicalTextsAreCompactTexts, FillBitsIgnoredOnDecode, BuiltinCodecReversible, ExpandThenCompactNormalises: canonical
texts, and texts over the alphabet that are not canonical (V-EXP-FILL). -/
theorem witness_texts64 : canonical .form64 (cells "f_________-AAAAAAAAAAA") = true ∧
    (cells "f_________-AAAAAAAAAAB").length = Form.form64.len ∧
    InAlphabet .form64 (cells "f_________-AAAAAAAAAAB") ∧
    canonical .form64 (cells "f_________-AAAAAAAAAAB") = false ∧
    canonicalize .form64 (cells "f_________-AAAAAAAAAAB") = cells "f_________-AAAAAAAAAAA" := by decide +kernel

theorem witness_texts32 : canonical .form32 (cells "77777777777777777777777774") = true ∧
    (cells "77777777777777777777777777").length = Form.form32.len ∧
    InAlphabet .form32 (cells "77777777777777777777777777") ∧
    canonical .form32 (cells "77777777777777777777777777") = false ∧
    canonicalize .form32 (cells "77777777777777777777777777") = cells "77777777777777777777777774" := by decide +kernel

/-- DecodeRejectsOrGivesSixteenBytes, BuiltinMeetsCodecContract: a text with one cell outside the alphabet, and one with
none, whose bytes are (0, 3). -/
theorem witness_decode_both : ¬ InAlphabet .form64 (cells "AAAAAAAAAAAAAAAAAAAAA=") ∧
    (cells "AAAAAAAAAAAAAAAAAAAAA=").length = Form.form64.len ∧
    dec .form64 (cells "AAAAAAAAAAAAAAAAAAAAA_") = .bytes (List.replicate 15 0x00#8 ++ [0x03#8]) := by decide +kernel

/-- A codec other than the built-in one: it rejects a text whose fill bits are not zero. -/
def strictCodec (f : Form) : Codec := { encode := paddedText f, decode := decWith true f }

/-- AnyContractCodecRoundTrips: a codec that is not the block's own meets the contract. -/
theorem witness_contract (f : Form) : (strictCodec f).MeetsContract f := by
  have ht : ∀ B, trunc f (paddedText f B) = enc f B := fun B => List.take_left' (enc_length f B)
  refine ⟨fun B _ => ⟨by simp [strictCodec, ht], ?_, ?_⟩, fun B _ p hp => ?_, fun T _ hT => ?_, fun B hB => ?_⟩
  · intro c hc
    rw [strictCodec, ht] at hc
    obtain ⟨v, -, rfl⟩ := List.mem_map.mp hc
    simp [inv_alpha]
  · rintro rfl
    simp [strictCodec, paddedText, Form.len, Form.npad]
  · rw [show (strictCodec f).encode B = enc f B ++ List.replicate f.npad Config.pad from rfl,
      List.drop_left' (enc_length f B)] at hp
    exact (List.mem_replicate.mp hp).2
  · have hn : textDigits f T = none := textDigits_eq_none_iff.mpr (by
      simp only [ne_eq, not_forall, not_not] at hT
      obtain ⟨c, hc, h⟩ := hT
      exact ⟨c, hc, h⟩)
    simp [strictCodec, decWith, hn]
  · simp only [strictCodec]
    rw [ht, decWith, textDigits_enc]
    simp [fillBits_digits, digitBytes_digits f B hB]

/-- The witness above is not the built-in codec. -/
theorem test_strictCodec_differs : (strictCodec .form64).decode (cells "AAAAAAAAAAAAAAAAAAAAAB") = .badChar ∧
    (builtinCodec .form64).decode (cells "AAAAAAAAAAAAAAAAAAAAAB") = .bytes (List.replicate 16 0x00#8) := by decide +kernel

/-- ByteCountOtherThanSixteenIsFormatError: a codec that decodes everything to 15 bytes. -/
theorem witness_fifteen_bytes :
    ({ encode := fun _ => [], decode := fun _ => .bytes (List.replicate 15 0x00#8) } : Codec).decode
      (readText .form64 blankText) = .bytes (List.replicate 15 0x00#8) ∧ (List.replicate 15 0x00#8).length ≠ 16 := by
  decide +kernel

/-! ### Witnesses: operations -/

/-- CompactTextProperties, OperationFrame: what the two operations answer next. -/
theorem witness_compact_next (hi lo : Word) (s : State) :
    exec (.cmp64 hi lo) s = .next { s with responses := s.responses ++ [compact .form64 hi lo] } ∧
    exec (.cmp32 hi lo) s = .next { s with responses := s.responses ++ [compact .form32 hi lo] } := ⟨rfl, rfl⟩

/-- Cmp64Result, Cmp32Result: the last cells of the ranges (V-CMP, the pair (0, 3)). -/
theorem witness_compact_cells :
    (compact .form64 0#64 3#64).text = field "AAAAAAAAAAAAAAAAAAAAAw" ∧
    (compact .form32 0#64 3#64).text = cells "AAAAAAAAAAAAAAAAAAAAAAAAAM" := by decide +kernel

/-- Exp64Result, ExpResult at length 22: a bad cell in the first and in the last cell, and digits for a text (digit 63 in
the last cell, all its fill bits set). -/
theorem witness_exp64_clauses :
    (21#8 : Byte) ≠ 22#8 ∧
    (field "*BEiM0RVZneImaq7zN3u_w")[0]? = some 0x2A#8 ∧ inv64 0x2A#8 = none ∧
    (field "ABEiM0RVZneImaq7zN3u_*")[21]? = some 0x2A#8 ∧
    ∀ k < 22, ∃ c, (field "AAAAAAAAAAAAAAAAAAAAA_")[k]? = some c ∧
      inv64 c = some ((fun n => if n = 21 then 63#6 else 0#6 : Nat → BitVec 6) k) := by
  refine ⟨by decide, by decide, by decide, by decide, fun k hk => ?_⟩
  have h : ∀ k < 22, inv64 ((field "AAAAAAAAAAAAAAAAAAAAA_").getD k 0#8) = some (if k = 21 then 63#6 else 0#6) ∧
    k < (field "AAAAAAAAAAAAAAAAAAAAA_").length := by decide +kernel
  exact ⟨_, List.getElem?_eq_getElem (h k hk).2, by
    have := (h k hk).1
    rwa [List.getD_eq_getElem?_getD, List.getElem?_eq_getElem (h k hk).2] at this⟩

/-- Exp32Result, ExpResult at length 26, the same. -/
theorem witness_exp32_clauses :
    (22#8 : Byte) ≠ 26#8 ∧
    (field "*AISEM2EKVTHPCEZVK54ZXPO74")[0]? = some 0x2A#8 ∧ inv32 0x2A#8 = none ∧
    (field "AAISEM2EKVTHPCEZVK54ZXPO7*")[25]? = some 0x2A#8 ∧
    ∀ k < 26, ∃ c, (field "AAAAAAAAAAAAAAAAAAAAAAAAA7")[k]? = some c ∧
      inv32 c = some ((fun n => if n = 25 then 31#5 else 0#5 : Nat → BitVec 5) k) := by
  refine ⟨by decide, by decide, by decide, by decide, fun k hk => ?_⟩
  have h : ∀ k < 26, inv32 ((field "AAAAAAAAAAAAAAAAAAAAAAAAA7").getD k 0#8) = some (if k = 25 then 31#5 else 0#5) ∧
    k < (field "AAAAAAAAAAAAAAAAAAAAAAAAA7").length := by decide +kernel
  exact ⟨_, List.getElem?_eq_getElem (h k hk).2, by
    have := (h k hk).1
    rwa [List.getD_eq_getElem?_getD, List.getElem?_eq_getElem (h k hk).2] at this⟩

/-- ExpResult, DispatchEquivalences: the lengths around the two that are taken. -/
theorem witness_other_lengths : ∀ n ∈ [0#8, 21#8, 23#8, 25#8, 27#8, 255#8], n ≠ 22#8 ∧ n ≠ 26#8 := by decide +kernel

/-! ### Witnesses: the machine -/

/-- ErrorResponsesCarryNothing: a request in flight whose answer is an error, of each class. -/
theorem witness_errors : [0x1705#352, 0x1606#352, 0x04#352, 0x1605#352, 0x03#352].map
      (fun q => (answer q).map Response.status) =
    [some .lengthError, some .lengthError, some .formatError, some .decodeError, some .illegalOp] := by
  decide +kernel

/-- StepAtRestChangesNothing: a state at rest; one with an unread response, idle and not at rest; one with a request in
flight. -/
theorem witness_at_rest : State.reset.AtRest ∧
    ({ queue := [], responses := [expandResponse 1#64 2#64] } : State).queue = [] ∧
    ¬ ({ queue := [], responses := [expandResponse 1#64 2#64] } : State).AtRest ∧
    ¬ (busy 0x01#352).AtRest := by decide +kernel

/-- Reading more responses than stand on the port is not possible; reading them all leaves the port empty (R207). -/
theorem test_takeResponses :
    (busy 0x01#352).takeResponses 2 = none ∧
    (busy 0x01#352).takeResponses 1 = some ([expandResponse 1#64 2#64], { queue := [0x01#352], responses := [] }) :=
  ⟨rfl, rfl⟩

/-- PlacedWordRunsNext. -/
theorem witness_placed_word : decodeTableWord 16 0x1605 = some (.exp64 22#8 blankText) := by decide +kernel

/-- OperationFrame: an operation that answers a next state with an error. -/
theorem witness_frame : exec (.exp 0#8 blankText) State.reset =
    .next (State.reset.give (responseOf (.exp 0#8 blankText))) := exec_eq _ _

/-- StepKeepsInvariant: a state with a request in flight and a response standing, and its step. -/
theorem witness_invariant : (busy 0x01#352).Inv ∧
    step (busy 0x01#352) = .next { queue := [], responses := [expandResponse 1#64 2#64] ++
      [responseOfDecoded (decode 0x01#352)] } :=
  ⟨⟨Nat.succ_le_succ (Nat.zero_le _), by decide +kernel⟩, step_of_queue_cons rfl⟩

/-- HostKeepsInvariant, PresentAcceptsBelowDepth: a request is accepted at an empty queue and refused at a full one. -/
theorem witness_present (q : RequestFrame) :
    State.reset.queue.length < Config.qdepth ∧ State.reset.present q = some { queue := [q], responses := [] } ∧
    Config.qdepth ≤ (List.replicate Config.qdepth q).length ∧
    State.present q { queue := List.replicate Config.qdepth q, responses := [] } = none := by
  have h : 0 < Config.qdepth := Nat.succ_pos _
  exact ⟨h, if_pos h, by simp, by simp [State.present]⟩

/-- HostKeepsInvariant: a response is taken. -/
theorem witness_take : (busy 0x01#352).takeResponse = some (expandResponse 1#64 2#64, { queue := [0x01#352], responses := [] }) :=
  rfl

/-! ### Witnesses: the host's side -/

/-- A text as character codes. -/
def codes (t : String) : List Nat := t.toList.map Char.toNat

/-- PresentedLengthDecides: texts of the two lengths, with junk behind the text, and of lengths beside them. -/
theorem witness_presents_22 : Presents (codes "ABEiM0RVZneImaq7zN3u_w") 22#8 (cells "ABEiM0RVZneImaq7zN3u_w****") ∧
    (codes "ABEiM0RVZneImaq7zN3u_w").length = 22 := by unfold Presents; decide +kernel

theorem witness_presents_26 : Presents (codes "AAISEM2EKVTHPCEZVK54ZXPO74") 26#8 (cells "AAISEM2EKVTHPCEZVK54ZXPO74") ∧
    (codes "AAISEM2EKVTHPCEZVK54ZXPO74").length = 26 := by unfold Presents; decide +kernel

theorem witness_presents_other : Presents (codes "*********************") 21#8 (field "*********************") ∧
    Presents [] 0#8 blankText ∧
    Presents (List.replicate 27 0x41) 27#8 (List.replicate 26 0x41#8) := by unfold Presents; decide +kernel

/-- PresentedLengthDecides: a text so long that its length saturates (V-EXP-LEN). -/
theorem witness_presents_300 : Presents (List.replicate 300 0x41) 255#8 (List.replicate 26 0x41#8) := by
  unfold Presents; decide +kernel

/-- WideCharactersRejected: a character of code 0x100 in the last cell read, for either length. -/
theorem witness_wide : Presents (List.replicate 21 0x41 ++ [0x100]) 22#8
      (List.replicate 21 0x41#8 ++ [0xFF#8] ++ List.replicate 4 0x00#8) ∧
    (List.replicate 21 0x41 ++ [0x100])[21]? = some 0x100 ∧
    Presents (List.replicate 25 0x41 ++ [0x20AC]) 26#8 (List.replicate 25 0x41#8 ++ [0xFF#8]) ∧
    (List.replicate 25 0x41 ++ [0x20AC])[25]? = some 0x20AC ∧ 256 ≤ 0x100 ∧ 256 ≤ 0x20AC := by unfold Presents; decide +kernel

/-- AssembledFramesAndPrinting: the cells at the ends of the field, and a text longer than it. -/
theorem witness_assembled : (reqText (AsmLine.exp (cells "AB")).frame) = field "AB" ∧
    (reqTlen (AsmLine.exp32 (cells "AB")).frame) = 2#8 ∧
    (reqText (AsmLine.exp64 (List.replicate 27 0x41#8)).frame) = List.replicate 26 0x41#8 := by decide +kernel

end Sys2Proof.Tests
end

section
/-! PROOFS. The buffer accesses cell by cell (R13), and the answer each request gets (R16, R20, R204). -/

namespace Sys2Proof.Machine

open Sys2Proof

/-! ### The byte buffer -/

/-- A write puts the bytes of the value into the written cells, most significant first (R13). -/
theorem memWrite_getElem?_inside (B : List Byte) (a n : Nat) (v : BitVec (8 * n)) (h : a + n ≤ B.length)
    {j : Nat} (hj : j < n) : (memWrite B a n v)[a + j]? = some (v.extractLsb' (8 * (n - 1 - j)) 8) := by
  have ha : (B.take a).length = a := List.length_take_of_le (by omega)
  rw [memWrite, List.append_assoc, List.getElem?_append_right (by omega), ha, Nat.add_sub_cancel_left,
    List.getElem?_append_left (by simpa using hj), splitChunks_getElem? 8 n v hj]

/-- The bytes of what a read gives are the cells it reads, in their order (R13). -/
theorem splitChunks_memRead (B : List Byte) (a n : Nat) (h : a + n ≤ B.length) :
    splitChunks 8 n (memRead B a n) = (B.drop a).take n :=
  splitChunks_joinChunks (by decide) rfl _ (List.length_take_of_le (by rw [List.length_drop]; omega))

/-- Cell `a + j` is byte `j` of what the read at `a` gives, most significant first. -/
theorem getElem?_eq_extract_memRead (B : List Byte) (a n : Nat) (h : a + n ≤ B.length) {j : Nat} (hj : j < n) :
    B[a + j]? = some ((memRead B a n).extractLsb' (8 * (n - 1 - j)) 8) := by
  rw [← splitChunks_getElem? 8 n _ hj, splitChunks_memRead B a n h, List.getElem?_take_of_lt hj, List.getElem?_drop]

/-- A read depends on the cells it reads and on no other. -/
theorem memRead_congr {B C : List Byte} {b m : Nat} (h : ∀ i, b ≤ i → i < b + m → B[i]? = C[i]?) :
    memRead B b m = memRead C b m := by
  have hcells : (B.drop b).take m = (C.drop b).take m := by
    apply List.ext_getElem?
    intro k
    by_cases hk : k < m
    · simpa [List.getElem?_take_of_lt hk] using h (b + k) (by omega) (by omega)
    · rw [List.getElem?_take_eq_none (by omega), List.getElem?_take_eq_none (by omega)]
  rw [memRead, hcells, memRead]

/-- A read of cells disjoint from the written ones gives what it gave before the write. -/
theorem memRead_memWrite_disjoint (B : List Byte) (a n : Nat) (v : BitVec (8 * n)) (h : a + n ≤ B.length)
    {b m : Nat} (hd : b + m ≤ a ∨ a + n ≤ b) : memRead (memWrite B a n v) b m = memRead B b m :=
  memRead_congr fun _ hlo hhi => memWrite_getElem?_outside B a n v h (by omega)

/-- Settles O14: each clause is the rule of one buffer access. -/
theorem bufferAccesses : Obligations.BufferAccesses := fun B a n v h =>
  ⟨memRead_memWrite_same B a n v h,
    fun _ hj => memWrite_getElem?_inside B a n v h hj,
    fun _ hi => memWrite_getElem?_outside B a n v h hi,
    fun _ hj => getElem?_eq_extract_memRead B a n h hj,
    fun _ _ hd => memRead_memWrite_disjoint B a n v h hd⟩

/-! ### The answer to a request -/

/-- A step adds the answer of the oldest request, whatever the state holds beside it. -/
theorem step_of_answer {s : State} {q : RequestFrame} {rest : List RequestFrame} {r : Response}
    (hq : s.queue = q :: rest) (hr : answer q = some r) :
    step s = .next { queue := rest, responses := s.responses ++ [r] } := by
  obtain rfl : responseOfDecoded (decode q) = r := Option.some.inj ((answer_eq q).symm.trans hr)
  exact step_of_queue_cons hq

/-- Settles O42: the answer is the response to what the frame decodes to, with no state in it, and the step adds
that response. -/
theorem eachRequestGetsItsOwnAnswer : Obligations.EachRequestGetsItsOwnAnswer :=
  ⟨fun q => ⟨responseOfDecoded (decode q), answer_eq q⟩, fun _ _ _ _ hq hr => step_of_answer hq hr⟩

end Sys2Proof.Machine
end

section
/-! PROOFS. The constant outputs (R22): what each reads, whatever the state. -/

namespace Sys2Proof.Machine

open Sys2Proof

/-- `C64LEN` is the length of a form-64 text as the frames carry it (R22, R8 `COMPACT64_LEN`). -/
@[simp] theorem constOut_c64len (s : State) : s.constOut .c64len = Form.form64.lenByte := rfl

/-- `C32LEN` is the length of a form-32 text as the frames carry it (R22, R8 `COMPACT32_LEN`). -/
@[simp] theorem constOut_c32len (s : State) : s.constOut .c32len = Form.form32.lenByte := rfl

/-- Settles O50: each output is hardwired to the length byte of its form, 22 = 0x16 and 26 = 0x1A. -/
theorem constantOutputs : Obligations.ConstantOutputs := fun s =>
  ⟨constOut_c64len s, constOut_c32len s⟩

end Sys2Proof.Machine
end

section
/-! PROOFS. The decoder on every frame (30_encoding.md R60, R63, R64), the responses an operation can give, and the
fields a response depends on (R62, R66). -/

namespace Sys2Proof.Machine

open Sys2Proof

/-! ### The decoder, opcode by opcode -/

/-- Cell `k` of the text field is bits `[151+8*k : 144+8*k]` of the frame (R60). -/
theorem reqText_eq_extract (q : RequestFrame) :
    reqText q = (List.range 26).map fun k => q.extractLsb' (144 + 8 * k) 8 := by
  refine List.map_congr_left fun k hk => BitVec.eq_of_getLsbD_eq fun i hi => ?_
  have hin : 8 * k + i < 208 := by have := List.mem_range.mp hk; omega
  simp [hi, hin, Nat.add_assoc]

theorem decode_of_opCmp64 {q : RequestFrame} (h : reqOp q = opCmp64) :
    decode q = .instr (.cmp64 (reqHi q) (reqLo q)) := by simp [decode, h]

theorem decode_of_opCmp32 {q : RequestFrame} (h : reqOp q = opCmp32) :
    decode q = .instr (.cmp32 (reqHi q) (reqLo q)) := by simp [decode, h, opCmp64, opCmp32]

theorem decode_of_opExp {q : RequestFrame} (h : reqOp q = opExp) :
    decode q = .instr (.exp (reqTlen q) (reqText q)) := by simp [decode, h, opCmp64, opCmp32, opExp]

theorem decode_of_opExp64 {q : RequestFrame} (h : reqOp q = opExp64) :
    decode q = .instr (.exp64 (reqTlen q) (reqText q)) := by
  simp [decode, h, opCmp64, opCmp32, opExp, opExp64]

theorem decode_of_opExp32 {q : RequestFrame} (h : reqOp q = opExp32) :
    decode q = .instr (.exp32 (reqTlen q) (reqText q)) := by
  simp [decode, h, opCmp64, opCmp32, opExp, opExp64, opExp32]

/-- Settles O2: one equation of the decoder for each opcode, with the 26 cells at their bits of the frame. -/
theorem decodeReadsFrameFields : Obligations.DecodeReadsFrameFields := by
  intro q
  rw [← reqText_eq_extract q]
  exact ⟨decode_of_opCmp64, decode_of_opCmp32, decode_of_opExp, decode_of_opExp64, decode_of_opExp32,
    decode_of_not_mem⟩

/-! ### The opcode as fields -/

/-- What the decoder accepts is the operation whose number stands in `op` (R63). -/
theorem reqOp_of_decode {q : RequestFrame} {i : Instr} (h : decode q = .instr i) : reqOp q = i.opcode := by
  obtain ⟨hop, rfl⟩ | ⟨hop, rfl⟩ | ⟨hop, rfl⟩ | ⟨hop, rfl⟩ | ⟨hop, rfl⟩ := decode_eq_instr h <;>
    exact hop

/-- The decoder accepts the five opcodes and no other (R63, R66). -/
theorem decode_accepts_iff (q : RequestFrame) :
    (∃ i, decode q = .instr i) ↔ reqOp q ∈ [0x01#8, 0x02#8, 0x04#8, 0x05#8, 0x06#8] := by
  refine ⟨fun ⟨i, hi⟩ => ?_, decode_of_mem⟩
  by_contra hop
  rw [decode_of_not_mem hop] at hi
  cases hi

/-- The conditions of R64 on the three fields of an opcode pick out the five numbers of R63. -/
theorem mem_opcodes_iff_fields : ∀ op : Byte, op ∈ [0x01#8, 0x02#8, 0x04#8, 0x05#8, 0x06#8] ↔
    (op.extractLsb' 3 5 = 0#5 ∧
      (op.extractLsb' 0 2 = 0b01#2 ∨ op.extractLsb' 0 2 = 0b10#2 ∨
        (op.extractLsb' 0 2 = 0b00#2 ∧ op.extractLsb' 2 1 = 1#1))) := by decide

/-- Bit 2 of an operation's number is its direction (R64). -/
theorem isExpand_iff_opcode (i : Instr) : isExpand i = true ↔ i.opcode.extractLsb' 2 1 = 1#1 := by
  cases i <;> simp [isExpand, Instr.opcode, opCmp64, opCmp32, opExp, opExp64, opExp32]

/-- Bits 1:0 of an operation's number are its form select (R64). -/
theorem opcode_form_select (i : Instr) :
    (fixedForm i = some .form64 ↔ i.opcode.extractLsb' 0 2 = 0b01#2) ∧
    (fixedForm i = some .form32 ↔ i.opcode.extractLsb' 0 2 = 0b10#2) ∧
    (fixedForm i = none ↔ i.opcode.extractLsb' 0 2 = 0b00#2) := by
  cases i <;> simp [fixedForm, Instr.opcode, opCmp64, opCmp32, opExp, opExp64, opExp32]

/-- Settles O5: the accepted opcodes are the five numbers, and an accepted opcode is that of its instruction, whose
fields say its direction and form. -/
theorem opcodeFieldsAgreeWithTable : Obligations.OpcodeFieldsAgreeWithTable := by
  refine fun q => ⟨(decode_accepts_iff q).trans (mem_opcodes_iff_fields _), fun i hi => ?_⟩
  rw [reqOp_of_decode hi]
  exact ⟨isExpand_iff_opcode i, opcode_form_select i⟩

/-! ### What an operation can answer -/

/-- An expand routine answers two words or a decode error (R156). -/
theorem expand_cases (f : Form) (text : List Cell) :
    (∃ hi lo, expand f text = expandResponse hi lo) ∨ expand f text = errorResponse .decodeError := by
  rw [expand_eq]
  cases textDigits f (readText f text) with
  | none => exact .inr rfl
  | some ds => exact .inl ⟨_, _, rfl⟩

/-- An operation answers a text, two words, or an error other than `ILLEGAL_OP` (R140, R141, R150 to R152). -/
theorem responseOf_cases (i : Instr) :
    (∃ f hi lo, responseOf i = compact f hi lo) ∨ (∃ hi lo, responseOf i = expandResponse hi lo) ∨
    ∃ e, e ≠ ErrorClass.illegalOp ∧ responseOf i = errorResponse e := by
  have of_expand (f : Form) (text : List Cell) (h : responseOf i = expand f text) :
      (∃ hi lo, responseOf i = expandResponse hi lo) ∨
        ∃ e, e ≠ ErrorClass.illegalOp ∧ responseOf i = errorResponse e := by
    rw [h]
    exact (expand_cases f text).imp_right fun he => ⟨.decodeError, by decide, he⟩
  cases i with
  | cmp64 hi lo => exact .inl ⟨_, hi, lo, rfl⟩
  | cmp32 hi lo => exact .inl ⟨_, hi, lo, rfl⟩
  | exp tlen text =>
    right
    cases hf : formOfLength tlen with
    | none => exact .inr ⟨.formatError, by decide, by simp [responseOf, hf]⟩
    | some f => exact of_expand f text (by simp [responseOf, hf])
  | exp64 tlen text =>
    right
    by_cases hlen : tlen = 22#8
    · exact of_expand .form64 text (if_pos hlen)
    · exact .inr ⟨.lengthError 22#8, by decide, if_neg hlen⟩
  | exp32 tlen text =>
    right
    by_cases hlen : tlen = 26#8
    · exact of_expand .form32 text (if_pos hlen)
    · exact .inr ⟨.lengthError 26#8, by decide, if_neg hlen⟩

/-- No operation answers `ILLEGAL_OP` (R66). -/
theorem responseOf_status_ne_illegalOp (i : Instr) : (responseOf i).status ≠ .illegalOp := by
  obtain ⟨f, hi, lo, h⟩ | ⟨hi, lo, h⟩ | ⟨e, he, h⟩ := responseOf_cases i
  · simp [h, compact]
  · simp [h]
  · rw [h, errorResponse_status]
    cases e <;> simp [ErrorClass.status] at he ⊢

/-- Settles O6: the step answers what the oldest request decodes to, and the decoder rejects exactly the other 251
opcodes. -/
theorem illegalOpcodesAnswered : Obligations.IllegalOpcodesAnswered := by
  refine fun s q rest hq => ⟨fun hop => ?_, fun hop => ?_⟩
  · rw [step_of_queue_cons hq, decode_of_not_mem hop]
    exact rfl
  · obtain ⟨i, hi⟩ := decode_of_mem hop
    refine ⟨responseOf i, ?_, responseOf_status_ne_illegalOp i⟩
    rw [step_of_queue_cons hq, hi, responseOfDecoded]

/-! ### The fields a response depends on -/

/-- The dispatcher takes a length for a form exactly when it is the form's length (R152). -/
theorem formOfLength_eq_some_iff {tlen : Byte} {f : Form} : formOfLength tlen = some f ↔ tlen = f.lenByte := by
  unfold formOfLength
  constructor
  · intro h
    split at h
    · cases h; assumption
    · split at h
      · cases h; assumption
      · cases h
  · rintro rfl
    cases f <;> rfl

/-- An expand routine reads the first `LEN(f)` cells and no other (R62). -/
theorem expand_congr {f : Form} {text text' : List Cell} (h : ∀ k < f.len, text[k]? = text'[k]?) :
    expand f text = expand f text' := by
  have hread : readText f text = readText f text' := by
    refine List.map_congr_left fun k hk => ?_
    simp only [textCell, List.getD_eq_getElem?_getD, h k (List.mem_range.mp hk)]
  rw [expand, hread, expand]

/-- `EXP64` reads the length, and the first 22 cells at length 22 (R62). -/
theorem responseOf_exp64_congr {tlen : Byte} {text text' : List Cell}
    (h : tlen = 22#8 → ∀ k < 22, text[k]? = text'[k]?) :
    responseOf (.exp64 tlen text) = responseOf (.exp64 tlen text') :=
  ite_congr rfl (fun hlen => expand_congr (f := .form64) (h hlen)) fun _ => rfl

/-- `EXP32` reads the length, and the first 26 cells at length 26 (R62). -/
theorem responseOf_exp32_congr {tlen : Byte} {text text' : List Cell}
    (h : tlen = 26#8 → ∀ k < 26, text[k]? = text'[k]?) :
    responseOf (.exp32 tlen text) = responseOf (.exp32 tlen text') :=
  ite_congr rfl (fun hlen => expand_congr (f := .form32) (h hlen)) fun _ => rfl

/-- `EXP` reads the length, and the cells of the form that the length selects (R62). -/
theorem responseOf_exp_congr {tlen : Byte} {text text' : List Cell}
    (h : ∀ f : Form, tlen = f.lenByte → ∀ k < f.len, text[k]? = text'[k]?) :
    responseOf (.exp tlen text) = responseOf (.exp tlen text') := by
  cases hf : formOfLength tlen with
  | none => simp only [responseOf, hf]
  | some f => simpa only [responseOf, hf] using expand_congr (h f (formOfLength_eq_some_iff.mp hf))

/-- Settles O7: the frames decode alike, and the response of each operation depends on no more of its operands than
the table's row says. -/
theorem unreadFieldsHaveNoEffect : Obligations.UnreadFieldsHaveNoEffect := by
  intro q q' ⟨hop, hcmp, hexp64, hexp32, hexp⟩
  suffices h : responseOfDecoded (decode q) = responseOfDecoded (decode q') by rw [answer_eq, answer_eq, h]
  by_cases hmem : reqOp q ∈ [0x01#8, 0x02#8, 0x04#8, 0x05#8, 0x06#8]
  · obtain ⟨i, hi⟩ := decode_of_mem hmem
    obtain ⟨h, -⟩ | ⟨h, -⟩ | ⟨h, -⟩ | ⟨h, -⟩ | ⟨h, -⟩ := decode_eq_instr hi
    · obtain ⟨hhi, hlo⟩ := hcmp (.inl h)
      rw [decode_of_opCmp64 h, decode_of_opCmp64 (hop.symm.trans h), hhi, hlo]
    · obtain ⟨hhi, hlo⟩ := hcmp (.inr h)
      rw [decode_of_opCmp32 h, decode_of_opCmp32 (hop.symm.trans h), hhi, hlo]
    · obtain ⟨hlen, h22, h26⟩ := hexp h
      rw [decode_of_opExp h, decode_of_opExp (hop.symm.trans h), ← hlen]
      exact responseOf_exp_congr fun | .form64 => h22 | .form32 => h26
    · obtain ⟨hlen, h22⟩ := hexp64 h
      rw [decode_of_opExp64 h, decode_of_opExp64 (hop.symm.trans h), ← hlen]
      exact responseOf_exp64_congr h22
    · obtain ⟨hlen, h26⟩ := hexp32 h
      rw [decode_of_opExp32 h, decode_of_opExp32 (hop.symm.trans h), ← hlen]
      exact responseOf_exp32_congr h26
  · rw [decode_of_not_mem hmem, decode_of_not_mem (hop ▸ hmem), hop]

end Sys2Proof.Machine
end

section
/-! PROOFS. The alphabets in closed form (30_encoding.md R76, R78) and the padding character, which is in neither
(R80). -/

namespace Sys2Proof.Machine

open Sys2Proof

/-! ### The alphabets -/

/-- Settles O15: the 64 entries of the table, range by range. -/
theorem alphabet64ClosedForm : Obligations.Alphabet64ClosedForm := by
  unfold Obligations.Alphabet64ClosedForm
  decide

/-- Settles O16: the 32 entries of the table, range by range. -/
theorem alphabet32ClosedForm : Obligations.Alphabet32ClosedForm := by
  unfold Obligations.Alphabet32ClosedForm
  decide

/-! ### The padding character -/

/-- `PAD` has no digit in either form (R80). -/
@[simp] theorem inv_pad (f : Form) : inv f Config.pad = none := by cases f <;> decide

/-- No digit is written as `PAD` (R80). -/
theorem alpha_ne_pad (f : Form) (v : BitVec f.width) : alpha f v ≠ Config.pad := by
  intro h
  have hv := inv_alpha f v
  rw [h, inv_pad] at hv
  cases hv

theorem pad_notMem_zeroCells (n : Nat) : Config.pad ∉ List.replicate n 0x00#8 := by
  intro h
  exact absurd (List.eq_of_mem_replicate h) (by decide)

theorem pad_notMem_enc (f : Form) (B : List Byte) : Config.pad ∉ enc f B := by
  intro h
  obtain ⟨d, -, hd⟩ := List.mem_map.mp h
  exact alpha_ne_pad f d hd

/-- No operation writes `PAD` into its response (R80). -/
theorem pad_notMem_responseOf_text (i : Instr) : Config.pad ∉ (responseOf i).text := by
  obtain ⟨f, hi, lo, h⟩ | ⟨hi, lo, h⟩ | ⟨e, -, h⟩ := responseOf_cases i
  · rw [h, compact, compactResponse_text]
    exact List.not_mem_append (pad_notMem_enc f _) (pad_notMem_zeroCells _)
  · rw [h, expandResponse_text]
    exact pad_notMem_zeroCells _
  · rw [h, errorResponse_text]
    exact pad_notMem_zeroCells _

/-- No answer of the block holds `PAD`, the one to an illegal opcode included (R80). -/
theorem pad_notMem_answer {q : RequestFrame} {r : Response} (h : answer q = some r) : Config.pad ∉ r.text := by
  obtain rfl : responseOfDecoded (decode q) = r := Option.some.inj ((answer_eq q).symm.trans h)
  cases decode q with
  | instr i => exact pad_notMem_responseOf_text i
  | illegalOp op => exact pad_notMem_zeroCells _

/-! ### A cell outside the alphabet -/

/-- What an expand routine reads holds each of the first `LEN(f)` cells of the field (R156). -/
theorem mem_readText_of_getElem? {f : Form} {text : List Cell} {k : Nat} {c : Cell} (hc : text[k]? = some c)
    (hk : k < f.len) : c ∈ readText f text := by
  refine List.mem_map.mpr ⟨k, List.mem_range.mpr hk, ?_⟩
  rw [textCell, List.getD_eq_getElem?_getD, hc, Option.getD_some]

/-- A cell outside the alphabet, among the cells read, makes the answer a decode error (R124, R150). -/
theorem expand_of_inv_eq_none {f : Form} {text : List Cell} {k : Nat} {c : Cell} (hc : text[k]? = some c)
    (hk : k < f.len) (hinv : inv f c = none) : expand f text = errorResponse .decodeError := by
  have hdigits : textDigits f (readText f text) = none :=
    textDigits_eq_none_iff.mpr ⟨c, mem_readText_of_getElem? hc hk, hinv⟩
  simp only [expand_eq, hdigits]

/-- An operation adds its response behind the earlier ones and leaves the queue alone. -/
theorem exec_of_responseOf {i : Instr} {r : Response} (h : responseOf i = r) (s : State) :
    exec i s = .next { s with responses := s.responses ++ [r] } := h ▸ exec_eq i s

/-- `EXP` at the length of a form runs the expand routine of that form (R152). -/
theorem responseOf_exp_lenByte (f : Form) (text : List Cell) :
    responseOf (.exp f.lenByte text) = expand f text := by
  simp only [responseOf, formOfLength_eq_some_iff.mpr rfl]

/-- `EXP64` and `EXP` at length 22 run the expand routine of form 64 (R150, R152). -/
theorem responseOf_expand64 (text : List Cell) :
    ∀ i ∈ [Instr.exp64 22#8 text, Instr.exp 22#8 text], responseOf i = expand .form64 text := by
  intro i hi
  obtain rfl | rfl : i = .exp64 22#8 text ∨ i = .exp 22#8 text := by simpa using hi
  · simp [responseOf]
  · exact responseOf_exp_lenByte .form64 text

/-- `EXP32` and `EXP` at length 26 run the expand routine of form 32 (R151, R152). -/
theorem responseOf_expand32 (text : List Cell) :
    ∀ i ∈ [Instr.exp32 26#8 text, Instr.exp 26#8 text], responseOf i = expand .form32 text := by
  intro i hi
  obtain rfl | rfl : i = .exp32 26#8 text ∨ i = .exp 26#8 text := by simpa using hi
  · simp [responseOf]
  · exact responseOf_exp_lenByte .form32 text

/-- Settles O19: `PAD` is outside both alphabets, so no digit is written as `PAD`, and an expand routine that reads it
answers a decode error. -/
theorem paddingNeverInOrOut : Obligations.PaddingNeverInOrOut := by
  refine ⟨rfl, inv_pad .form64, inv_pad .form32, fun _ _ => pad_notMem_answer, fun text s k hpad =>
    ⟨fun hk i hi => exec_of_responseOf ?_ s, fun hk i hi => exec_of_responseOf ?_ s⟩⟩
  · exact (responseOf_expand64 text i hi).trans (expand_of_inv_eq_none hpad hk (inv_pad .form64))
  · exact (responseOf_expand32 text i hi).trans (expand_of_inv_eq_none hpad hk (inv_pad .form32))

end Sys2Proof.Machine
end

section
/-! PROOFS. The host's side: how a text's length is presented (30_encoding.md R69), the frame of a request line (R90,
R91), and frames as hexadecimal digits (R91). -/

namespace Sys2Proof.Machine

open Sys2Proof

/-! ### The presented length -/

/-- The length is saturated at 255, which fits in the field (R69). -/
theorem hostTlen_toNat (chars : List Nat) : (hostTlen chars).toNat = min chars.length 255 := by
  rw [hostTlen, BitVec.toNat_ofNat]
  exact Nat.mod_eq_of_lt (by omega)

theorem lenByte_toNat (f : Form) : f.lenByte.toNat = f.len := by cases f <;> rfl

/-- A text is seen with the length of a form exactly when it has that length: saturation changes neither 22 nor 26,
and gives neither (R69). -/
theorem hostTlen_eq_lenByte_iff (chars : List Nat) (f : Form) :
    hostTlen chars = f.lenByte ↔ chars.length = f.len := by
  have hlen : f.len < 255 := by cases f <;> decide
  rw [← BitVec.toNat_inj, hostTlen_toNat, lenByte_toNat]
  omega

/-- A length that no form has is a format error of the dispatcher (R152). -/
theorem responseOf_exp_of_forall_ne {tlen : Byte} (text : List Cell) (h : ∀ f : Form, tlen ≠ f.lenByte) :
    responseOf (.exp tlen text) = errorResponse .formatError := by
  cases hf : formOfLength tlen with
  | none => simp only [responseOf, hf]
  | some f => exact absurd (formOfLength_eq_some_iff.mp hf) (h f)

/-- Settles O52: the presented length is a form's length exactly when the text's is, and every other length is
rejected on length alone. -/
theorem presentedLengthDecides : Obligations.PresentedLengthDecides := by
  rintro chars tlen text s ⟨rfl, -, -⟩
  have h22 := hostTlen_eq_lenByte_iff chars .form64
  have h26 := hostTlen_eq_lenByte_iff chars .form32
  refine ⟨fun hn => exec_of_responseOf ?_ s, fun hn => exec_of_responseOf ?_ s,
    fun hn hn' => exec_of_responseOf ?_ s, h22.mpr, h26.mpr⟩
  · exact if_neg (mt h22.mp hn)
  · exact if_neg (mt h26.mp hn)
  · refine responseOf_exp_of_forall_ne text fun f => ?_
    cases f with
    | form64 => exact mt h22.mp hn
    | form32 => exact mt h26.mp hn'

/-! ### The frame of a request line -/

/-- A code that fits in a cell is presented as it is (R70). -/
@[simp] theorem hostCell_toNat (c : Cell) : hostCell c.toNat = c := by
  simp [hostCell, c.isLt]

@[simp] theorem hostText_length (chars : List Nat) : (hostText chars).length = 26 := by simp [hostText]

/-- Cell `k` of the text field of a line is its cell `k`, or 0x00 behind its end (R90, R91). -/
theorem hostText_getElem? (cells : List Cell) {k : Nat} (hk : k < 26) :
    (hostText (cells.map BitVec.toNat))[k]? = some (cells.getD k 0x00#8) := by
  rw [List.getD_eq_getElem?_getD]
  cases h : cells[k]? <;> simp [hostText, hk, h]

/-- The fields of a compact line's frame (R91). -/
theorem cmpFrame_fields {q : RequestFrame} {op : Byte} {hi lo : Word}
    (hq : q = requestFrame op 0#8 hi lo blankText) :
    reqHi q = hi ∧ reqLo q = lo ∧ reqTlen q = 0x00#8 ∧ reqText q = List.replicate 26 0x00#8 := by
  subst hq
  exact ⟨reqHi_requestFrame .., reqLo_requestFrame .., reqTlen_requestFrame ..,
    reqText_requestFrame _ _ _ _ _ blankText_length⟩

/-- The fields of an expand line's frame (R91). -/
theorem expFrame_fields {q : RequestFrame} {op : Byte} {cells : List Cell}
    (hq : q = requestFrame op (hostTlen (cells.map BitVec.toNat)) 0#64 0#64
      (hostText (cells.map BitVec.toNat))) :
    reqHi q = 0#64 ∧ reqLo q = 0#64 ∧ (reqTlen q).toNat = min cells.length 255 ∧
    ∀ k < 26, (reqText q)[k]? = some (cells.getD k 0x00#8) := by
  subst hq
  refine ⟨reqHi_requestFrame .., reqLo_requestFrame .., ?_, fun k hk => ?_⟩
  · rw [reqTlen_requestFrame, hostTlen_toNat, List.length_map]
  · rw [reqText_requestFrame _ _ _ _ _ (hostText_length _), hostText_getElem? cells hk]

/-! ### Frames as hexadecimal digits -/

theorem hexValue?_hexChar : ∀ d < 16, hexValue? (hexChar d) = some d := by decide

@[simp] theorem hexDigits_length (n v : Nat) : (hexDigits n v).length = n := by simp [hexDigits]

/-- The last digit is the least significant one; the digits before it are those of the rest (R91). -/
theorem hexDigits_succ (n v : Nat) : hexDigits (n + 1) v = hexDigits n (v / 16) ++ [hexChar (v % 16)] := by
  rw [hexDigits, List.range_succ, List.map_append]
  congr 1
  · refine List.map_congr_left fun k hk => ?_
    have hexp : n + 1 - 1 - k = n - 1 - k + 1 := by have := List.mem_range.mp hk; omega
    rw [hexp, Nat.pow_succ', ← Nat.div_div_eq_div_mul]
  · simp

/-- Reading `n` digits gives the number modulo `16 ^ n`. -/
theorem foldl_numeralStep_hexDigits (n v : Nat) :
    (hexDigits n v).foldl (numeralStep 16) (some 0) = some (v % 16 ^ n) := by
  induction n generalizing v with
  | zero => simp [hexDigits, Nat.mod_one]
  | succ n ih =>
    have hd : v % 16 < 16 := Nat.mod_lt _ (by decide)
    rw [hexDigits_succ, List.foldl_append, ih, Nat.pow_succ', Nat.mod_mul]
    simp only [List.foldl_cons, List.foldl_nil, numeralStep, hexValue?_hexChar _ hd, if_pos hd]
    exact congrArg some (by omega)

/-- A number below `16 ^ n` reads back from its `n` digits, for `n` at least 1 (R91). -/
theorem numeral?_hexDigits {n v : Nat} (hn : n ≠ 0) (hv : v < 16 ^ n) : numeral? 16 (hexDigits n v) = some v := by
  have hne : hexDigits n v ≠ [] := fun h => hn (by rw [← hexDigits_length n v, h, List.length_nil])
  rw [numeral?, if_neg hne, foldl_numeralStep_hexDigits, Nat.mod_eq_of_lt hv]

/-- A frame of `4 * n` bits reads back from its `n` digits (R91). -/
theorem numeral?_hexDigits_toNat {n : Nat} (hn : n ≠ 0) (w : BitVec (4 * n)) :
    numeral? 16 (hexDigits n w.toNat) = some w.toNat :=
  numeral?_hexDigits hn (Nat.lt_of_lt_of_eq w.isLt (Nat.pow_mul 2 4 n))

/-- Settles O55: a line's frame is put together from its fields, and a frame of `4 * n` bits reads back from its `n`
digits. -/
theorem assembledFramesAndPrinting : Obligations.AssembledFramesAndPrinting := by
  refine ⟨fun hi lo l hl => ?_, fun cells l hl => ?_, fun hi lo cells => ?_, fun q => ?_, fun w => ?_⟩
  · simp only [List.mem_cons, List.not_mem_nil, or_false] at hl
    obtain rfl | rfl := hl <;> exact cmpFrame_fields rfl
  · simp only [List.mem_cons, List.not_mem_nil, or_false] at hl
    obtain rfl | rfl | rfl := hl <;> exact expFrame_fields rfl
  · exact ⟨reqOp_requestFrame .., reqOp_requestFrame .., reqOp_requestFrame .., reqOp_requestFrame ..,
      reqOp_requestFrame ..⟩
  · exact ⟨hexDigits_length 88 _, numeral?_hexDigits_toNat (n := 88) (by decide) q⟩
  · exact ⟨hexDigits_length 90 _, numeral?_hexDigits_toNat (n := 90) (by decide) w⟩

end Sys2Proof.Machine
end

section
/-! PROOFS. Packing and unpacking byte by byte (40_pack_unpack.md R100, R102, R103). -/

namespace Sys2Proof.Machine

open Sys2Proof

/-- The packed buffer is the 16 bytes of `V = hi ‖ lo` (R41, R100). -/
theorem pack_eq_splitChunks (hi lo : Word) : pack hi lo = splitChunks 8 16 (hi ++ lo : Ident) := by
  rw [← joinChunks_pack, splitChunks_joinChunks (by decide) (by decide) _ (pack_length hi lo)]

/-- Byte `i` of the packed buffer is `V[127-8*i : 120-8*i]` (R100). -/
theorem pack_getElem? (hi lo : Word) {i : Nat} (hlt : i < 16) :
    (pack hi lo)[i]? = some ((hi ++ lo : Ident).extractLsb' (120 - 8 * i) 8) := by
  have hpos : 8 * (16 - 1 - i) = 120 - 8 * i := by omega
  rw [pack_eq_splitChunks, splitChunks_getElem? _ _ _ hlt, hpos]

/-- The first eight bytes of the packed buffer are those of `hi`, which lies above the 64 bits of `lo` (R100). -/
theorem pack_getElem?_hi (hi lo : Word) {i : Nat} (hlt : i < 8) :
    (pack hi lo)[i]? = some (hi.extractLsb' (56 - 8 * i) 8) := by
  have hpos : 120 - 8 * i - 64 = 56 - 8 * i := by omega
  rw [pack_getElem? hi lo (by omega), BitVec.extractLsb'_append_eq_of_le (by omega), hpos]

/-- The last eight bytes of the packed buffer are those of `lo` (R100). -/
theorem pack_getElem?_lo (hi lo : Word) {i : Nat} (hlt : i < 8) :
    (pack hi lo)[8 + i]? = some (lo.extractLsb' (56 - 8 * i) 8) := by
  have hpos : 120 - 8 * (8 + i) = 56 - 8 * i := by omega
  rw [pack_getElem? hi lo (by omega), hpos, BitVec.extractLsb'_append_eq_of_add_le (by omega)]

/-- Settles O10: the buffer is cut from `V = hi ‖ lo`, so a byte of either word is a slice of one half of `V`. -/
theorem packIsBigEndian : Obligations.PackIsBigEndian := fun hi lo =>
  ⟨pack_length hi lo, fun _ hlt => pack_getElem? hi lo hlt, fun _ hlt => pack_getElem?_hi hi lo hlt,
    fun _ hlt => pack_getElem?_lo hi lo hlt⟩

/-- Each of the eight bytes from `a` on is a slice of the word read there, so no byte is merged over another
(R102, R103). -/
theorem getElem?_eq_extract_memRead_word (B : List Byte) (a : Nat) (h : a + 8 ≤ B.length) {i : Nat} (hlt : i < 8) :
    B[a + i]? = some ((memRead B a 8).extractLsb' (56 - 8 * i) 8) := by
  have hpos : 8 * (8 - 1 - i) = 56 - 8 * i := by omega
  rw [getElem?_eq_extract_memRead B a 8 h hlt, hpos]

/-- Settles O12: the two words are the reads at 0 and at 8. -/
theorem unpackIsUnsigned : Obligations.UnpackIsUnsigned := by
  intro B hB i hlt
  have hhi := getElem?_eq_extract_memRead_word B 0 (by omega) hlt
  have hlo := getElem?_eq_extract_memRead_word B 8 (by omega) hlt
  rw [Nat.zero_add] at hhi
  exact ⟨hhi, hlo⟩

end Sys2Proof.Machine
end

section
/-! PROOFS. Truncation of a padded text (41_codec.md R120, R123), and the fill bits of the last digit, which decoding
drops (R127). -/

namespace Sys2Proof.Machine

open Sys2Proof

/-! ### Truncation -/

/-- Truncation gives the encoding back, whatever stands behind it (R123). -/
theorem trunc_enc_append (f : Form) (B : List Byte) (P : List Cell) : trunc f (enc f B ++ P) = enc f B :=
  List.take_left' (enc_length f B)

/-- What truncation drops of a padded text is its padding (R120, R123). -/
theorem drop_paddedText (f : Form) (B : List Byte) :
    (paddedText f B).drop f.len = List.replicate f.npad Config.pad :=
  List.drop_left' (enc_length f B)

theorem paddedText_length (f : Form) (B : List Byte) : (paddedText f B).length = f.len + f.npad := by
  rw [paddedText, List.length_append, enc_length, List.length_replicate]

/-- Settles O24: an encoding has `LEN(f)` cells, so the cells behind it are what truncation drops. -/
theorem truncationDropsOnlyPadding : Obligations.TruncationDropsOnlyPadding := by
  refine ⟨fun P => ⟨rfl, rfl⟩, fun f B => ⟨enc_length f B, fun n => trunc_enc_append f B _, fun c hc => ?_,
    paddedText_length .form64 B⟩⟩
  rw [drop_paddedText] at hc
  exact List.eq_of_mem_replicate hc

/-! ### The last digit and its fill bits -/

/-- A text of full length over the alphabet is written with `LEN(f)` digits, of which there is a last one. -/
theorem exists_digits_of_inAlphabet {f : Form} {T : List Cell} (hlen : T.length = f.len) (hT : InAlphabet f T) :
    ∃ ds d, T = (ds ++ [d]).map (alpha f) ∧ ds.length + 1 = f.len := by
  cases hds : textDigits f T with
  | none =>
    obtain ⟨c, hc, hinv⟩ := textDigits_eq_none_iff.mp hds
    exact absurd hinv (hT c hc)
  | some all =>
    have hall : all.length = f.len := (textDigits_length hds).trans hlen
    obtain rfl | ⟨ds, d, rfl⟩ := List.eq_nil_or_concat' all
    · cases f <;> cases hall
    · exact ⟨ds, d, textDigits_eq_some_iff.mp hds, by simpa using hall⟩

/-- The low bits of a cleared digit are zero and the others are kept (R83, R127). -/
theorem clearFill_getLsbD (f : Form) (d : BitVec f.width) (i : Nat) :
    (clearFill f d).getLsbD i = (!decide (i < f.fill) && d.getLsbD i) := by
  by_cases hi : i < f.fill
  · simp [clearFill, hi]
  · have hsum : f.fill + (i - f.fill) = i := by omega
    simpa [clearFill, hi, hsum] using BitVec.lt_of_getLsbD (x := d) (i := i)

/-- Clearing the fill bits of the last digit keeps the joined bits above them and makes those below zero (R127). -/
theorem joinDigits_clearFill (f : Form) (ds : List (BitVec f.width)) (d : BitVec f.width) :
    joinDigits f (ds ++ [clearFill f d]) = (joinDigits f (ds ++ [d])).extractLsb' f.fill 128 ++ 0#f.fill := by
  have hfill : f.fill ≤ f.width := by cases f <;> decide
  apply BitVec.eq_of_getLsbD_eq
  intro i hi
  refine Eq.trans ?_ BitVec.getLsbD_append.symm
  simp only [joinDigits, joinChunks_snoc, BitVec.getLsbD_or, BitVec.getLsbD_shiftLeft, BitVec.getLsbD_setWidth,
    clearFill_getLsbD, BitVec.getLsbD_extractLsb', BitVec.getLsbD_zero]
  by_cases hlow : i < f.fill
  · have hw : i < f.width := by omega
    simp [hlow, hw]
  · have hin : i - f.fill < 128 := by omega
    have hsum : f.fill + (i - f.fill) = i := by omega
    simp [hlow, hin, hsum]

/-- Encoding the bytes of a digit vector gives its digits back, the fill bits of the last one cleared (R127). -/
theorem digits_digitBytes (f : Form) (ds : List (BitVec f.width)) (d : BitVec f.width)
    (hlen : ds.length + 1 = f.len) : digits f (digitBytes f (ds ++ [d])) = ds ++ [clearFill f d] := by
  have hcleared : (ds ++ [clearFill f d]).length = f.len := by simpa using hlen
  have hbits : joinChunks 128 (digitBytes f (ds ++ [d])) = (joinDigits f (ds ++ [d])).extractLsb' f.fill 128 :=
    joinChunks_splitChunks (by decide) (by decide) _
  rw [digits, hbits, ← joinDigits_clearFill]
  exact splitChunks_joinChunks (width_pos f) (width_mul_len f) _ hcleared

/-! ### The canonical text -/

/-- The canonical text of `T` is written with the digits of `T`, the fill bits of the last one cleared (R83). -/
theorem canonicalize_map_alpha (f : Form) (ds : List (BitVec f.width)) (d : BitVec f.width) :
    canonicalize f ((ds ++ [d]).map (alpha f)) = (ds ++ [clearFill f d]).map (alpha f) := by
  rw [canonicalize, textDigits_map_alpha]
  simp

/-- The canonical text of `T` is what the bytes of `T` encode to (R127). -/
theorem canonicalize_eq_enc (f : Form) (ds : List (BitVec f.width)) (d : BitVec f.width)
    (hlen : ds.length + 1 = f.len) :
    canonicalize f ((ds ++ [d]).map (alpha f)) = enc f (digitBytes f (ds ++ [d])) := by
  rw [canonicalize_map_alpha, enc, digits_digitBytes f ds d hlen]

/-- A text over the alphabet is canonical exactly when its fill bits are zero (R83). -/
theorem canonical_map_alpha {f : Form} {ds : List (BitVec f.width)} (hlen : ds.length = f.len) :
    canonical f (ds.map (alpha f)) = (fillBits f ds == 0#f.fill) := by
  cases hlast : ds.getLast? with
  | none =>
    rw [List.getLast?_eq_none_iff.mp hlast] at hlen
    cases f <;> cases hlen
  | some d =>
    simp [canonical, textDigits_map_alpha, hlen, hlast, fillBits_eq_of_getLast? f ds hlen hlast]

/-- An encoding is canonical (R83, R116). -/
theorem canonical_enc (f : Form) (B : List Byte) : canonical f (enc f B) = true := by
  rw [enc, canonical_map_alpha (digits_length f B), fillBits_digits, beq_self_eq_true]

/-! ### Decoding -/

theorem dec_map_alpha (f : Form) (ds : List (BitVec f.width)) :
    dec f (ds.map (alpha f)) = .bytes (digitBytes f ds) := by
  rw [dec_eq, textDigits_map_alpha]

/-- Decoding an encoding gives the 16 bytes back (R113). -/
theorem dec_enc {f : Form} {B : List Byte} (hB : B.length = 16) : dec f (enc f B) = .bytes B := by
  rw [enc, dec_map_alpha, digitBytes_digits f B hB]

/-- Under `STRICT_FILL` a text over the alphabet is decoded exactly when it is canonical (R127). -/
theorem decWith_strict_map_alpha {f : Form} {ds : List (BitVec f.width)} (hlen : ds.length = f.len) :
    decWith true f (ds.map (alpha f)) =
      if canonical f (ds.map (alpha f)) = true then dec f (ds.map (alpha f)) else .badChar := by
  rw [canonical_map_alpha hlen, dec_map_alpha, decWith, textDigits_map_alpha]
  by_cases hfill : fillBits f ds = 0#f.fill <;> simp [hfill]

/-- Settles O21: the canonical text is what the bytes of the text encode to, and decoding an encoding gives its bytes
back; only the last digit is not kept. -/
theorem fillBitsIgnoredOnDecode : Obligations.FillBitsIgnoredOnDecode := by
  intro f T hT hin
  obtain ⟨ds, d, rfl, hlen⟩ := exists_digits_of_inAlphabet hT hin
  have henc := canonicalize_eq_enc f ds d hlen
  refine ⟨henc ▸ canonical_enc f _, fun k hk => ?_, ⟨digitBytes f (ds ++ [d]), dec_map_alpha f _, ?_, henc.symm⟩,
    decWith_strict_map_alpha (by simpa using hlen)⟩
  · have hkds : k < ds.length := by omega
    rw [canonicalize_map_alpha, List.getElem?_map, List.getElem?_map, List.getElem?_append_left hkds,
      List.getElem?_append_left hkds]
  · rw [henc, dec_enc (digitBytes_length f _)]

end Sys2Proof.Machine
end

section
/-! PROOFS. The responses of the compact operations cell by cell (R140, R141). -/

namespace Sys2Proof.Machine

open Sys2Proof

/-- The digits of a packed pair are cut from `V = hi ‖ lo` and the fill zeros (R116). -/
theorem digits_pack (f : Form) (hi lo : Word) :
    digits f (pack hi lo) = splitChunks f.width f.len ((hi ++ lo : Ident) ++ 0#f.fill) := by
  rw [digits, joinChunks_pack]

/-- Cells 0 to `LEN(f) - 1` of the response are the characters of the digits (R117). -/
theorem compact_text_getElem?_of_lt_len (f : Form) (hi lo : Word) {k : Nat} (hk : k < f.len) :
    (compact f hi lo).text[k]? =
      some (alpha f (((hi ++ lo : Ident) ++ 0#f.fill).extractLsb' (f.width * (f.len - 1 - k)) f.width)) := by
  rw [compact, compactResponse_text, List.getElem?_append_left (by rwa [enc_length]), enc, digits_pack,
    List.getElem?_map, splitChunks_getElem? _ _ _ hk, Option.map_some]

/-- Every digit but the last lies in `V` alone (R81, R82). -/
theorem compact_text_getElem?_of_succ_lt_len (f : Form) (hi lo : Word) {k : Nat} (hk : k + 1 < f.len) :
    (compact f hi lo).text[k]? =
      some (alpha f ((hi ++ lo : Ident).extractLsb' (128 - f.width * (k + 1)) f.width)) := by
  obtain ⟨habove, hpos⟩ : f.fill ≤ f.width * (f.len - 1 - k) ∧
      f.width * (f.len - 1 - k) - f.fill = 128 - f.width * (k + 1) := by
    cases f <;> (simp only [Form.width, Form.len, Form.fill] at hk ⊢; omega)
  rw [compact_text_getElem?_of_lt_len f hi lo (by omega), BitVec.extractLsb'_append_eq_of_le habove, hpos]

/-- The lowest `c + m` bits of a value with `m` bits below it are its lowest `c` bits and those `m`. -/
theorem extractLsb'_zero_append {n m : Nat} (c : Nat) (x : BitVec n) (y : BitVec m) :
    (x ++ y).extractLsb' 0 (c + m) = x.extractLsb' 0 c ++ y := by
  rw [← BitVec.extractLsb'_append_extractLsb'_eq_extractLsb' (Nat.zero_add m).symm,
    BitVec.extractLsb'_append_eq_of_le le_rfl, Nat.sub_self, BitVec.extractLsb'_append_eq_right]

/-- The last digit is the low bits of `V` above the fill zeros (R81, R82). -/
theorem compact_text_getElem?_last (f : Form) (hi lo : Word) {c : Nat} (hc : c + f.fill = f.width) :
    (compact f hi lo).text[f.len - 1]? =
      some (alpha f (((hi ++ lo : Ident).extractLsb' 0 c ++ 0#f.fill).cast hc)) := by
  have hlast : f.len - 1 < f.len := by cases f <;> decide
  have hdigit : ((hi ++ lo : Ident) ++ 0#f.fill).extractLsb' 0 f.width =
      ((hi ++ lo : Ident).extractLsb' 0 c ++ 0#f.fill).cast hc := by
    rw [← extractLsb'_zero_append]
    exact BitVec.eq_of_toNat_eq (by simp [hc])
  rw [compact_text_getElem?_of_lt_len f hi lo hlast, Nat.sub_self, Nat.mul_zero, hdigit]

/-- The cells from `LEN(f)` up are 0x00 (R61). -/
theorem compact_text_getElem?_of_len_le (f : Form) (hi lo : Word) {k : Nat} (hlen : f.len ≤ k) (hk : k < 26) :
    (compact f hi lo).text[k]? = some 0x00#8 := by
  rw [compact, compactResponse_text, List.getElem?_append_right (by rwa [enc_length]), enc_length,
    List.getElem?_replicate_of_lt (by simp only [Config.textCells]; omega)]

/-- A compact response has all 26 cells. -/
theorem compact_text_length (f : Form) (hi lo : Word) : (compact f hi lo).text.length = 26 := by
  rw [compact, compactResponse_text, List.length_append, enc_length, List.length_replicate]
  cases f <;> rfl

/-- Settles O28: the response is `COMPACT(form64)`; 21 digits lie in `V`, the last has two bits of it. -/
theorem cmp64Result : Obligations.Cmp64Result := by
  refine fun hi lo s => ⟨compact .form64 hi lo, exec_of_responseOf rfl s, rfl, rfl, rfl, rfl, rfl,
    compact_text_length .form64 hi lo, fun k hk => ?_, compact_text_getElem?_last .form64 hi lo rfl,
    fun k hlen hk => compact_text_getElem?_of_len_le .form64 hi lo hlen (by omega)⟩
  have hpos : 122 - 6 * k = 128 - 6 * (k + 1) := by omega
  rw [hpos]
  exact compact_text_getElem?_of_succ_lt_len .form64 hi lo (by simp only [Form.len]; omega)

/-- Settles O29: the response is `COMPACT(form32)`; 25 digits lie in `V`, the last has three bits of it. -/
theorem cmp32Result : Obligations.Cmp32Result := by
  refine fun hi lo s => ⟨compact .form32 hi lo, exec_of_responseOf rfl s, rfl, rfl, rfl, rfl, rfl,
    compact_text_length .form32 hi lo, fun k hk => ?_, compact_text_getElem?_last .form32 hi lo rfl⟩
  have hpos : 123 - 5 * k = 128 - 5 * (k + 1) := by omega
  rw [hpos]
  exact compact_text_getElem?_of_succ_lt_len .form32 hi lo (by simp only [Form.len]; omega)

end Sys2Proof.Machine
end

section
/-! PROOFS. The responses of the expand operations: which length and which cells each rejects, and the words of the
digits (43_expand.md R150 to R152, 41_codec.md R125, R126). -/

namespace Sys2Proof.Machine

open Sys2Proof

/-! ### The identifier of a text -/

/-- A slice of a slice is a slice of the value. -/
theorem extractLsb'_extractLsb' {n a b m p : Nat} (x : BitVec n) (h : b + p ≤ m) :
    (x.extractLsb' a m).extractLsb' b p = x.extractLsb' (a + b) p := by
  apply BitVec.eq_of_getLsbD_eq
  intro i hi
  have hin : b + i < m := by omega
  simp [hi, hin, Nat.add_assoc]

/-- The two words unpacked from the bytes of a digit vector lie side by side as its bits above the fill bits (R125,
R126). -/
theorem unpack_digitBytes_append (f : Form) (ds : List (BitVec f.width)) :
    ((unpack (digitBytes f ds)).1 ++ (unpack (digitBytes f ds)).2 : Ident) =
      (joinDigits f ds).extractLsb' f.fill 128 := by
  rw [unpack_digitBytes]
  exact (BitVec.extractLsb'_append_extractLsb'_eq_extractLsb' (Nat.zero_add 64).symm).trans BitVec.extractLsb'_eq_self

/-- Every digit but the last stands whole in the identifier (R125, R126). -/
theorem extract_identifier_of_le {f : Form} {ds : List (BitVec f.width)} (hlen : ds.length = f.len) {k : Nat}
    (hk : k ≤ f.len - 2) {d : BitVec f.width} (hd : ds[k]? = some d) :
    ((joinDigits f ds).extractLsb' f.fill 128).extractLsb' (128 - f.width - f.width * k) f.width = d := by
  obtain ⟨hlt, hin, hpos⟩ : k < f.len ∧ 128 - f.width - f.width * k + f.width ≤ 128 ∧
      f.fill + (128 - f.width - f.width * k) = f.width * (f.len - 1 - k) := by
    cases f <;> (simp only [Form.width, Form.len, Form.fill] at hk ⊢; omega)
  rw [extractLsb'_extractLsb' _ hin, hpos]
  exact Option.some.inj ((extract_joinDigits f ds hlen hlt).symm.trans hd)

/-- Of the last digit the identifier has the bits above the fill bits, as its lowest (R125, R126). -/
theorem extract_identifier_last {f : Form} {ds : List (BitVec f.width)} (hlen : ds.length = f.len) {c : Nat}
    (hc : f.fill + c = f.width) {d : BitVec f.width} (hd : ds[f.len - 1]? = some d) :
    ((joinDigits f ds).extractLsb' f.fill 128).extractLsb' 0 c = d.extractLsb' f.fill c := by
  have hlast : f.len - 1 < f.len := by cases f <;> decide
  have hc128 : 0 + c ≤ 128 := by cases f <;> (simp only [Form.width, Form.fill] at hc; omega)
  rw [extract_joinDigits f ds hlen hlast, Option.some.injEq, Nat.sub_self, Nat.mul_zero] at hd
  rw [extractLsb'_extractLsb' _ hc128, ← hd, extractLsb'_extractLsb' _ hc.le, Nat.zero_add, Nat.add_zero]

/-! ### The expand routine -/

/-- The digits `d[0]` to `d[LEN(f)-1]` as a vector. -/
def digitVector (f : Form) (d : Nat → BitVec f.width) : List (BitVec f.width) := (List.range f.len).map d

@[simp] theorem digitVector_length (f : Form) (d : Nat → BitVec f.width) : (digitVector f d).length = f.len := by
  simp [digitVector]

theorem digitVector_getElem? (f : Form) (d : Nat → BitVec f.width) {k : Nat} (hk : k < f.len) :
    (digitVector f d)[k]? = some (d k) := by
  simp [digitVector, hk]

/-- The cells of a text field that an expand routine reads for form `f` have the digits `d` (R124). -/
abbrev HasDigits (f : Form) (text : List Cell) (d : Nat → BitVec f.width) : Prop :=
  ∀ k < f.len, ∃ c, text[k]? = some c ∧ inv f c = some (d k)

/-- Cells with digits are the characters of these digits. -/
theorem readText_of_hasDigits {f : Form} {text : List Cell} {d : Nat → BitVec f.width} (h : HasDigits f text d) :
    readText f text = (digitVector f d).map (alpha f) := by
  rw [readText, digitVector, List.map_map]
  refine List.map_congr_left fun k hk => ?_
  obtain ⟨c, hc, hinv⟩ := h k (List.mem_range.mp hk)
  rw [textCell, List.getD_eq_getElem?_getD, hc, Option.getD_some, Function.comp_apply, alpha_of_inv hinv]

/-- The expand routine answers cells with digits by the words of their vector (R124, R156). -/
theorem expand_of_hasDigits {f : Form} {text : List Cell} {d : Nat → BitVec f.width} (h : HasDigits f text d) :
    expand f text =
      wordsResponse (unpack (digitBytes f (digitVector f d))).1 (unpack (digitBytes f (digitVector f d))).2 := by
  rw [expand_eq, readText_of_hasDigits h, textDigits_map_alpha]
  rfl

/-! ### The operations -/

/-- An operation that runs the expand routine answers a cell outside the alphabet by a decode error (R150 to R152). -/
theorem exec_of_inv_eq_none {f : Form} {i : Instr} {text : List Cell} (hi : responseOf i = expand f text) {k : Nat}
    (hk : k < f.len) {c : Cell} (hc : text[k]? = some c) (hinv : inv f c = none) (s : State) :
    exec i s = .next { s with responses := s.responses ++ [failureResponse .decodeError 0x00#8] } :=
  exec_of_responseOf (hi.trans (expand_of_inv_eq_none hc hk hinv)) s

/-- An operation that runs the expand routine completes on cells with digits, with the words whose bits are the digits,
the fill bits of the last one dropped (R125, R126, R150 to R152). -/
theorem exec_of_hasDigits {f : Form} {i : Instr} {text : List Cell} (hi : responseOf i = expand f text)
    {d : Nat → BitVec f.width} (h : HasDigits f text d) {c : Nat} (hc : f.fill + c = f.width) (s : State) :
    ∃ hi lo : Word, exec i s = .next { s with responses := s.responses ++ [wordsResponse hi lo] } ∧
      (∀ k ≤ f.len - 2, (hi ++ lo : Ident).extractLsb' (128 - f.width - f.width * k) f.width = d k) ∧
      (hi ++ lo : Ident).extractLsb' 0 c = (d (f.len - 1)).extractLsb' f.fill c := by
  have hlen := digitVector_length f d
  have hlt : f.len - 2 < f.len ∧ f.len - 1 < f.len := by cases f <;> decide
  refine ⟨_, _, exec_of_responseOf (hi.trans (expand_of_hasDigits h)) s, ?_⟩
  rw [unpack_digitBytes_append]
  exact ⟨fun k hk => extract_identifier_of_le hlen hk (digitVector_getElem? f d (hk.trans_lt hlt.1)),
    extract_identifier_last hlen hc (digitVector_getElem? f d hlt.2)⟩

/-- `EXP64` tests the length before anything else (R150). -/
theorem responseOf_exp64_of_ne {tlen : Byte} (text : List Cell) (h : tlen ≠ 22#8) :
    responseOf (.exp64 tlen text) = errorResponse (.lengthError 22#8) := if_neg h

/-- `EXP32` tests the length before anything else (R151). -/
theorem responseOf_exp32_of_ne {tlen : Byte} (text : List Cell) (h : tlen ≠ 26#8) :
    responseOf (.exp32 tlen text) = errorResponse (.lengthError 26#8) := if_neg h

/-- Settles O31: `EXP64` tests the length, and at 22 runs `EXPAND(form64)`. -/
theorem exp64Result : Obligations.Exp64Result := by
  intro tlen text s
  have hrun := responseOf_expand64 text (.exp64 22#8 text) List.mem_cons_self
  refine ⟨fun hne => exec_of_responseOf (responseOf_exp64_of_ne text hne) s, ?_, ?_⟩
  · rintro rfl k hk c hc hinv
    exact exec_of_inv_eq_none hrun hk hc hinv s
  · rintro rfl d hd
    exact exec_of_hasDigits hrun hd rfl s

/-- Settles O32: `EXP32` tests the length, and at 26 runs `EXPAND(form32)`. -/
theorem exp32Result : Obligations.Exp32Result := by
  intro tlen text s
  have hrun := responseOf_expand32 text (.exp32 26#8 text) List.mem_cons_self
  refine ⟨fun hne => exec_of_responseOf (responseOf_exp32_of_ne text hne) s, ?_, ?_⟩
  · rintro rfl k hk c hc hinv
    exact exec_of_inv_eq_none hrun hk hc hinv s
  · rintro rfl d hd
    exact exec_of_hasDigits hrun hd rfl s

/-- Settles O33: a length that no form has is rejected, and the length of a form runs its expand routine. -/
theorem expResult : Obligations.ExpResult := by
  intro tlen text s
  have hrun64 := responseOf_exp_lenByte .form64 text
  have hrun32 := responseOf_exp_lenByte .form32 text
  refine ⟨fun h22 h26 => ?_, ?_, ?_, ?_, ?_⟩
  · exact exec_of_responseOf (responseOf_exp_of_forall_ne text fun | .form64 => h22 | .form32 => h26) s
  · rintro rfl k hk c hc hinv
    exact exec_of_inv_eq_none hrun64 hk hc hinv s
  · rintro rfl k hk c hc hinv
    exact exec_of_inv_eq_none hrun32 hk hc hinv s
  · rintro rfl d hd
    exact exec_of_hasDigits hrun64 hd rfl s
  · rintro rfl d hd
    exact exec_of_hasDigits hrun32 hd rfl s

end Sys2Proof.Machine
end

section
/-! PROOFS. The response frame field by field and read back (30_encoding.md R61, R65, R171), the status of every answer
by the order of the tests (60_exceptions.md R175), what an error response carries (R176), and the host's messages (R173). -/

namespace Sys2Proof.Machine

open Sys2Proof

/-! ### The response frame -/

/-- A field above the lowest `m` bits is a field of what stands above them. -/
theorem extractLsb'_append_above {n m : Nat} (x : BitVec n) (y : BitVec m) (a p : Nat) :
    (x ++ y).extractLsb' (a + m) p = x.extractLsb' a p := by
  rw [BitVec.extractLsb'_append_eq_of_le (Nat.le_add_left m a), Nat.add_sub_cancel]

theorem toFrame_status (r : Response) : r.toFrame.extractLsb' 0 8 = r.status.code :=
  BitVec.extractLsb'_append_eq_right

theorem toFrame_olen (r : Response) : r.toFrame.extractLsb' 8 8 = r.olen :=
  (extractLsb'_append_above ..).trans BitVec.extractLsb'_append_eq_right

theorem toFrame_elen (r : Response) : r.toFrame.extractLsb' 16 8 = r.elen :=
  (extractLsb'_append_above ..).trans <| (extractLsb'_append_above ..).trans BitVec.extractLsb'_append_eq_right

theorem toFrame_lo (r : Response) : r.toFrame.extractLsb' 24 64 = r.lo :=
  (extractLsb'_append_above ..).trans <| (extractLsb'_append_above ..).trans <|
    (extractLsb'_append_above ..).trans BitVec.extractLsb'_append_eq_right

theorem toFrame_hi (r : Response) : r.toFrame.extractLsb' 88 64 = r.hi :=
  (extractLsb'_append_above ..).trans <| (extractLsb'_append_above ..).trans <|
    (extractLsb'_append_above ..).trans <| (extractLsb'_append_above ..).trans BitVec.extractLsb'_append_eq_right

theorem toFrame_text (r : Response) : r.toFrame.extractLsb' 152 208 = textToBits r.text :=
  (extractLsb'_append_above ..).trans <| (extractLsb'_append_above ..).trans <|
    (extractLsb'_append_above ..).trans <| (extractLsb'_append_above ..).trans <|
    (extractLsb'_append_above ..).trans BitVec.extractLsb'_eq_self

theorem ofCode?_code (st : Status) : Status.ofCode? st.code = some st := by cases st <;> rfl

theorem code_toNat_le (st : Status) : st.code.toNat ≤ 4 := by cases st <;> decide

/-- A response of 26 cells reads back from its frame (R61). -/
theorem ofFrame?_toFrame {r : Response} (h : r.text.length = 26) : Response.ofFrame? r.toFrame = some r := by
  simp only [Response.ofFrame?, toFrame_status, ofCode?_code, toFrame_olen, toFrame_elen, toFrame_lo, toFrame_hi,
    toFrame_text, bitsToText_textToBits _ h]

/-! ### The cells of an answer -/

/-- An answer is the response to what the frame decodes to (R16). -/
theorem eq_responseOfDecoded {q : RequestFrame} {r : Response} (h : answer q = some r) :
    r = responseOfDecoded (decode q) := Option.some.inj (h.symm.trans (answer_eq q))

/-- Every answer has all 26 cells (R61). -/
theorem answer_text_length {q : RequestFrame} {r : Response} (h : answer q = some r) : r.text.length = 26 := by
  rw [eq_responseOfDecoded h]
  cases decode q with
  | illegalOp op => exact blankText_length
  | instr i =>
    rw [responseOfDecoded]
    obtain ⟨f, hi, lo, hr⟩ | ⟨hi, lo, hr⟩ | ⟨e, -, hr⟩ := responseOf_cases i
    · rw [hr, compact_text_length]
    · rw [hr, expandResponse_text, blankText_length]
    · rw [hr, errorResponse_text, blankText_length]

/-- Settles O9: the low byte of a frame is the code of its status, and a frame of 26 cells reads back. -/
theorem statusCodesAndFramesReadBack : Obligations.StatusCodesAndFramesReadBack := by
  refine ⟨⟨toFrame_status _, fun _ => toFrame_status _, toFrame_status _, toFrame_status _, toFrame_status _⟩,
    fun q r hr => ⟨?_, ofFrame?_toFrame (answer_text_length hr)⟩⟩
  rw [toFrame_status]
  exact code_toNat_le r.status

/-! ### The status of an answer -/

/-- A text has no digits exactly when it is not over the alphabet (R124). -/
theorem textDigits_eq_none_iff_not_inAlphabet {f : Form} {T : List Cell} :
    textDigits f T = none ↔ ¬ InAlphabet f T := by
  simp [textDigits_eq_none_iff, InAlphabet]

/-- The alphabet test of an expand routine looks at the first `LEN(f)` cells, and no test after it fails (R128, R175). -/
theorem expand_status (f : Form) {text : List Cell} (hlen : text.length = 26) :
    (expand f text).status = if InAlphabet f (text.take f.len) then .ok else .decodeError := by
  rw [expand_eq, readText_eq_take f text hlen]
  cases hds : textDigits f (text.take f.len) with
  | none => exact (if_neg (textDigits_eq_none_iff_not_inAlphabet.mp hds)).symm
  | some ds =>
    have hin : InAlphabet f (text.take f.len) := by
      by_contra hout
      cases hds.symm.trans (textDigits_eq_none_iff_not_inAlphabet.mpr hout)
    exact (if_pos hin).symm

theorem responseOf_exp64_status (tlen : Byte) {text : List Cell} (hlen : text.length = 26) :
    (responseOf (.exp64 tlen text)).status =
      if tlen ≠ 22#8 then .lengthError
      else if InAlphabet .form64 (text.take 22) then .ok else .decodeError := by
  by_cases h : tlen = 22#8
  · subst h
    exact expand_status .form64 hlen
  · rw [responseOf_exp64_of_ne text h, if_pos h]
    rfl

theorem responseOf_exp32_status (tlen : Byte) {text : List Cell} (hlen : text.length = 26) :
    (responseOf (.exp32 tlen text)).status =
      if tlen ≠ 26#8 then .lengthError
      else if InAlphabet .form32 (text.take 26) then .ok else .decodeError := by
  by_cases h : tlen = 26#8
  · subst h
    exact expand_status .form32 hlen
  · rw [responseOf_exp32_of_ne text h, if_pos h]
    rfl

theorem responseOf_exp_status (tlen : Byte) {text : List Cell} (hlen : text.length = 26) :
    (responseOf (.exp tlen text)).status =
      if tlen = 22#8 then if InAlphabet .form64 (text.take 22) then .ok else .decodeError
      else if tlen = 26#8 then if InAlphabet .form32 (text.take 26) then .ok else .decodeError
      else .formatError := by
  by_cases h22 : tlen = 22#8
  · subst h22
    exact expand_status .form64 hlen
  by_cases h26 : tlen = 26#8
  · subst h26
    exact expand_status .form32 hlen
  rw [responseOf_exp_of_forall_ne text fun | .form64 => h22 | .form32 => h26, if_neg h22, if_neg h26]
  rfl

/-- Settles O37: the opcode picks the operation, whose status the tests of its length and its cells give in their
order. -/
theorem statusByPriority : Obligations.StatusByPriority := by
  intro q r hr
  have hlen := reqText_length q
  rw [eq_responseOfDecoded hr]
  by_cases hmem : reqOp q ∈ [0x01#8, 0x02#8, 0x04#8, 0x05#8, 0x06#8]
  · obtain ⟨i, hi⟩ := decode_of_mem hmem
    rw [hi, responseOfDecoded]
    obtain ⟨hop, rfl⟩ | ⟨hop, rfl⟩ | ⟨hop, rfl⟩ | ⟨hop, rfl⟩ | ⟨hop, rfl⟩ := decode_eq_instr hi <;> rw [hop]
    · rfl
    · rfl
    · exact responseOf_exp_status _ hlen
    · exact responseOf_exp64_status _ hlen
    · exact responseOf_exp32_status _ hlen
  · rw [decode_of_not_mem hmem]
    simp only [List.mem_cons, List.not_mem_nil, or_false, not_or] at hmem
    simp [responseOfDecoded, ErrorClass.status, hmem]

/-! ### What an error response carries -/

/-- The only error of an expand routine is a bad character (R156, R175). -/
theorem expand_of_status_ne_ok {f : Form} {text : List Cell} (h : (expand f text).status ≠ .ok) :
    expand f text = failureResponse .decodeError 0x00#8 := by
  obtain ⟨hi, lo, hok⟩ | herr := expand_cases f text
  · exact absurd (congrArg Response.status hok) h
  · exact herr

/-- An operation that fails answers a length error with the length it requires, or an error with `elen` zero (R176). -/
theorem responseOf_of_status_ne_ok {i : Instr} (h : (responseOf i).status ≠ .ok) :
    (∃ st, st ≠ .lengthError ∧ responseOf i = failureResponse st 0x00#8) ∨
    (responseOf i = failureResponse .lengthError 22#8 ∧ i.opcode = opExp64) ∨
    (responseOf i = failureResponse .lengthError 26#8 ∧ i.opcode = opExp32) := by
  have of_expand (f : Form) (text : List Cell) (hrun : responseOf i = expand f text) :
      ∃ st, st ≠ .lengthError ∧ responseOf i = failureResponse st 0x00#8 := by
    rw [hrun] at h ⊢
    exact ⟨.decodeError, by decide, expand_of_status_ne_ok h⟩
  cases i with
  | cmp64 hi lo => exact absurd rfl h
  | cmp32 hi lo => exact absurd rfl h
  | exp tlen text =>
    left
    cases hf : formOfLength tlen with
    | none => exact ⟨.formatError, by decide, by simp only [responseOf, hf]; rfl⟩
    | some f => exact of_expand f text (by simp only [responseOf, hf])
  | exp64 tlen text =>
    by_cases hlen : tlen = 22#8
    · exact .inl (of_expand .form64 text (if_pos hlen))
    · exact .inr (.inl ⟨responseOf_exp64_of_ne text hlen, rfl⟩)
  | exp32 tlen text =>
    by_cases hlen : tlen = 26#8
    · exact .inl (of_expand .form32 text (if_pos hlen))
    · exact .inr (.inr ⟨responseOf_exp32_of_ne text hlen, rfl⟩)

/-- Settles O38: the step adds the answer and nothing else, and an answer that is not `OK` is the error of a failing
operation or `ILLEGAL_OP`. -/
theorem errorResponsesCarryNothing : Obligations.ErrorResponsesCarryNothing := by
  refine fun s q rest r hq hr hne => ⟨step_of_answer hq hr, ?_⟩
  obtain rfl := eq_responseOfDecoded hr
  cases hd : decode q with
  | illegalOp op => exact .inl ⟨rfl, by simp [responseOfDecoded, ErrorClass.status]⟩
  | instr i =>
    rw [hd] at hne
    rw [reqOp_of_decode hd, responseOfDecoded]
    obtain ⟨st, hst, herr⟩ | hlen := responseOf_of_status_ne_ok hne
    · rw [herr]
      exact .inl ⟨rfl, hst⟩
    · exact .inr hlen

/-! ### The host's messages -/

/-- The message of a length error ends in the required length, whatever the input was (R173). -/
theorem renderMessage_lengthError (elen : Byte) (input : List Char) :
    renderMessage (failureResponse .lengthError elen) input =
      some ("Expecting a compact uuid string of length ".toList ++ decimal elen.toNat) := rfl

/-- Settles O54: `elen` is rendered in decimal digits; the other messages are a fixed text with the input behind it. -/
theorem hostMessages : Obligations.HostMessages := by
  intro input
  refine ⟨?_, ?_, rfl, rfl, rfl⟩
  · rw [renderMessage_lengthError]
    decide
  · rw [renderMessage_lengthError]
    decide

end Sys2Proof.Machine
end

section
/-! PROOFS. Reset (70_reset_and_hazards.md R200), and how a run ends: every request in flight is answered, in order
(R201, R204), and once the host has read every response the block is in its reset state (R207). -/

namespace Sys2Proof.Machine

open Sys2Proof

/-! ### Reset -/

/-- Settles O49: reset gives the reset state from any state, and the constant outputs read the lengths of the two
forms in every state, this one included. -/
theorem resetDropsEverything : Obligations.ResetDropsEverything := fun s =>
  ⟨s.assertReset_eq, State.reset_queue, State.reset_responses, constOut_c64len _, constOut_c32len _⟩

/-! ### Draining the queue -/

/-- The answers of the requests of a queue, in their order. -/
def answersTo (queue : List RequestFrame) : List Response :=
  queue.map fun q => responseOfDecoded (decode q)

@[simp] theorem answersTo_nil : answersTo [] = [] := rfl

@[simp] theorem answersTo_cons (q : RequestFrame) (queue : List RequestFrame) :
    answersTo (q :: queue) = responseOfDecoded (decode q) :: answersTo queue := rfl

@[simp] theorem answersTo_length (queue : List RequestFrame) : (answersTo queue).length = queue.length :=
  List.length_map _

/-- What stands in `answersTo` is what `F` gives for each request (R16). -/
theorem map_some_answersTo (queue : List RequestFrame) : (answersTo queue).map some = queue.map answer := by
  simp [answersTo, answer_eq]

/-- A run of no steps ends where it starts. -/
theorem core_run_zero (s : State) : Host.Core.run core 0 s = .next s := rfl

/-- As many steps as there are requests in flight put all their answers, in order, behind the responses already
given (R201, R204). Each step moves one request's answer to the port, so the responses given vary. -/
theorem core_run_queue_length (queue : List RequestFrame) (given : List Response) :
    Host.Core.run core queue.length ({ queue := queue, responses := given } : State) =
      .next { queue := [], responses := given ++ answersTo queue } := by
  induction queue generalizing given with
  | nil => rw [List.length_nil, core_run_zero, answersTo_nil, List.append_nil]
  | cons q rest ih =>
    have hstep : step { queue := q :: rest, responses := given } =
        .next { queue := rest, responses := given ++ [responseOfDecoded (decode q)] } := step_of_queue_cons rfl
    rw [List.length_cons, core_run_succ hstep, ih, answersTo_cons, List.append_assoc, List.singleton_append]

/-- Settles O43: the run of the whole queue gives the answers of its requests. -/
theorem queueDrainsInOrder : Obligations.QueueDrainsInOrder := fun s =>
  ⟨answersTo s.queue, map_some_answersTo s.queue, core_run_queue_length s.queue s.responses⟩

/-! ### The end of a run -/

/-- The host reads the responses already given and then the answers, and the port is then empty (R204, R207). -/
theorem takeResponses_after_drain (queue : List RequestFrame) (given : List Response) :
    ({ queue := [], responses := given ++ answersTo queue } : State).takeResponses (given.length + queue.length) =
      some (given ++ answersTo queue, State.reset) := by
  have hlen : (given ++ answersTo queue).length = given.length + queue.length := by simp
  rw [← hlen, State.takeResponses_all, State.reset]

/-- Settles O57: the queue drains in as many steps as it has requests, reading every response then empties the port,
and a block with nothing in flight and nothing unread is in the reset state. -/
theorem runEndsInResetState : Obligations.RunEndsInResetState := fun s =>
  ⟨answersTo s.queue, { queue := [], responses := s.responses ++ answersTo s.queue }, State.reset,
    map_some_answersTo s.queue, core_run_queue_length s.queue s.responses,
    takeResponses_after_drain s.queue s.responses, ⟨State.reset_queue, State.reset_responses⟩, rfl⟩

end Sys2Proof.Machine
end

section
/-! PROOFS. The frames of the encoder read back by the decoder (30_encoding.md R60, R62, R91), and the step that runs
what the decoder gives (00_scope.md R16). -/

namespace Sys2Proof.Machine

open Sys2Proof

/-! ### Decoding an encoding -/

theorem textFieldOk_iff {text : List Cell} : textFieldOk text = true ↔ text.length = 26 := by simp [textFieldOk]

/-- Settles O3: the opcode of the frame picks the operation, and each operand reads back from its field, a text because
it has 26 cells. -/
theorem decodeOfEncode : Obligations.DecodeOfEncode := by
  intro i hwf
  cases i with
  | cmp64 hi lo => rw [encode, decode_of_opCmp64 (reqOp_requestFrame ..), reqHi_requestFrame, reqLo_requestFrame]
  | cmp32 hi lo => rw [encode, decode_of_opCmp32 (reqOp_requestFrame ..), reqHi_requestFrame, reqLo_requestFrame]
  | exp tlen text =>
    rw [encode, decode_of_opExp (reqOp_requestFrame ..), reqTlen_requestFrame,
      reqText_requestFrame _ _ _ _ _ (textFieldOk_iff.mp hwf)]
  | exp64 tlen text =>
    rw [encode, decode_of_opExp64 (reqOp_requestFrame ..), reqTlen_requestFrame,
      reqText_requestFrame _ _ _ _ _ (textFieldOk_iff.mp hwf)]
  | exp32 tlen text =>
    rw [encode, decode_of_opExp32 (reqOp_requestFrame ..), reqTlen_requestFrame,
      reqText_requestFrame _ _ _ _ _ (textFieldOk_iff.mp hwf)]

/-- Settles O1: the opcode picks the operation, and the fields of the printed frame are the operands beside it. -/
theorem referenceFramesDecode : Obligations.ReferenceFramesDecode := by
  refine ⟨?_, ?_, ?_, ?_, ?_⟩
  · exact (decode_of_opCmp64 (by decide +kernel)).trans (by decide +kernel)
  · exact (decode_of_opCmp32 (by decide +kernel)).trans (by decide +kernel)
  · exact (decode_of_opExp (by decide +kernel)).trans (by decide +kernel)
  · exact (decode_of_opExp64 (by decide +kernel)).trans (by decide +kernel)
  · exact (decode_of_opExp32 (by decide +kernel)).trans (by decide +kernel)

/-! ### What an accepted frame stands for -/

/-- The decoder gives a text field the 26 cells of the frame (R60). -/
theorem wellFormed_of_decode {q : RequestFrame} {i : Instr} (h : decode q = .instr i) : i.wellFormed = true := by
  have htext : textFieldOk (reqText q) = true := textFieldOk_iff.mpr (reqText_length q)
  obtain ⟨-, rfl⟩ | ⟨-, rfl⟩ | ⟨-, rfl⟩ | ⟨-, rfl⟩ | ⟨-, rfl⟩ := decode_eq_instr h
  · rfl
  · rfl
  all_goals exact htext

/-- Two frames of one instruction agree on every field that its operation reads, since these are its operands (R62). -/
theorem sameReadFields_of_decode {q q' : RequestFrame} {i : Instr} (h : decode q = .instr i)
    (h' : decode q' = .instr i) : SameReadFields q q' := by
  have hop : reqOp q = reqOp q' := (reqOp_of_decode h).trans (reqOp_of_decode h').symm
  have hdec : decode q = decode q' := h.trans h'.symm
  refine ⟨hop, ?_, fun h5 => ?_, fun h6 => ?_, fun h4 => ?_⟩
  · rintro (h1 | h2)
    · simpa [decode_of_opCmp64 h1, decode_of_opCmp64 (hop ▸ h1)] using hdec
    · simpa [decode_of_opCmp32 h2, decode_of_opCmp32 (hop ▸ h2)] using hdec
  · obtain ⟨htlen, htext⟩ : reqTlen q = reqTlen q' ∧ reqText q = reqText q' := by
      simpa [decode_of_opExp64 h5, decode_of_opExp64 (hop ▸ h5)] using hdec
    exact ⟨htlen, fun _ k _ => by rw [htext]⟩
  · obtain ⟨htlen, htext⟩ : reqTlen q = reqTlen q' ∧ reqText q = reqText q' := by
      simpa [decode_of_opExp32 h6, decode_of_opExp32 (hop ▸ h6)] using hdec
    exact ⟨htlen, fun _ k _ => by rw [htext]⟩
  · obtain ⟨htlen, htext⟩ : reqTlen q = reqTlen q' ∧ reqText q = reqText q' := by
      simpa [decode_of_opExp h4, decode_of_opExp (hop ▸ h4)] using hdec
    exact ⟨htlen, fun _ k _ => by rw [htext], fun _ k _ => by rw [htext]⟩

/-- Settles O4: the frame and the encoding of its instruction decode to that same instruction. -/
theorem decodedIsWellFormedAndReencodes : Obligations.DecodedIsWellFormedAndReencodes := by
  intro q i h
  have hwf := wellFormed_of_decode h
  exact ⟨hwf, sameReadFields_of_decode (decodeOfEncode i hwf) h⟩

/-! ### The step runs the decoded instruction -/

/-- Settles O39: the step adds the response to what the oldest request decodes to, which is what `exec` adds. -/
theorem stepRunsDecodedInstruction : Obligations.StepRunsDecodedInstruction := by
  intro s q rest i hq hd
  rw [step_of_queue_cons hq, hd, exec_eq]
  rfl

/-- A word that stands for an instruction is the frame that decodes to it (R60). -/
theorem decode_of_decodeTableWord {nbits w : Nat} {i : Instr} (h : decodeTableWord nbits w = some i) :
    decode (BitVec.ofNat 352 (w % 2 ^ nbits)) = .instr i := by
  unfold decodeTableWord at h
  by_cases hn : nbits ≤ 352
  · rw [if_pos hn] at h
    cases hd : decode (BitVec.ofNat 352 (w % 2 ^ nbits)) with
    | instr j =>
      rw [hd] at h
      cases h
      rfl
    | illegalOp op =>
      rw [hd] at h
      cases h
  · rw [if_neg hn] at h
    cases h

/-- Settles O41: the placed word is the oldest request, in front of the rest of the queue. -/
theorem placedWordRunsNext : Obligations.PlacedWordRunsNext := fun s _ _ i h =>
  stepRunsDecodedInstruction _ _ s.queue.tail i (State.placeRequest_queue ..) (decode_of_decodeTableWord h)

end Sys2Proof.Machine
end

section
/-! PROOFS. The invariant of the ports (10_state.md R28, 30_encoding.md R61, 60_exceptions.md R172, R176), kept by every
step and by the host, and what a step and an operation do to the state. -/

namespace Sys2Proof.Machine

open Sys2Proof

/-! ### The responses the block may give -/

/-- The text of a compact response, as far as `olen` says, is the encoding of the pair (R143). -/
theorem compact_text_take (f : Form) (hi lo : Word) : (compact f hi lo).text.take f.len = enc f (pack hi lo) :=
  trunc_enc_append f (pack hi lo) _

/-- A compact response carries a canonical text and zeros (R61, R68, R83). -/
theorem compact_compactOk (f : Form) (hi lo : Word) : (compact f hi lo).CompactOk f := by
  refine ⟨rfl, rfl, rfl, rfl, ?_, List.drop_left' (enc_length f _)⟩
  rw [compact_text_take]
  exact canonical_enc f _

/-- A successful response of an operation is a compact text or two words (R140, R141, R150 to R152). -/
theorem responseOf_of_status_ok {i : Instr} (h : (responseOf i).status = .ok) :
    (responseOf i).CompactOk .form64 ∨ (responseOf i).CompactOk .form32 ∨ (responseOf i).ExpandOk := by
  obtain ⟨f, hi, lo, hr⟩ | ⟨hi, lo, hr⟩ | ⟨e, -, hr⟩ := responseOf_cases i
  · rw [hr]
    cases f with
    | form64 => exact .inl (compact_compactOk .form64 hi lo)
    | form32 => exact .inr (.inl (compact_compactOk .form32 hi lo))
  · rw [hr]
    exact .inr (.inr ⟨rfl, rfl, rfl⟩)
  · rw [hr] at h
    cases e <;> cases h

theorem failureResponse_blank (st : Status) (elen : Byte) : (failureResponse st elen).Blank := ⟨rfl, rfl, rfl, rfl⟩

/-- An error other than a length error has `elen` zero (R176). -/
theorem failureResponse_legal {st : Status} (hok : st ≠ .ok) (hlen : st ≠ .lengthError) :
    (failureResponse st 0x00#8).Legal := by
  refine .inr (.inr ⟨?_, rfl, failureResponse_blank st _⟩)
  cases st with
  | ok => exact absurd rfl hok
  | lengthError => exact absurd rfl hlen
  | formatError => exact .inl rfl
  | decodeError => exact .inr (.inl rfl)
  | illegalOp => exact .inr (.inr rfl)

/-- A length error carries the length of one of the two forms (R172 E2, E3). -/
theorem lengthError_legal (f : Form) : (failureResponse .lengthError f.lenByte).Legal := by
  refine .inr (.inl ⟨rfl, ?_, failureResponse_blank _ _⟩)
  cases f with
  | form64 => exact .inl rfl
  | form32 => exact .inr rfl

/-- Every operation answers a response the block may give (R172). -/
theorem responseOf_legal (i : Instr) : (responseOf i).Legal := by
  by_cases hok : (responseOf i).status = .ok
  · exact .inl ⟨hok, responseOf_of_status_ok hok⟩
  obtain ⟨st, hst, hr⟩ | ⟨hr, -⟩ | ⟨hr, -⟩ := responseOf_of_status_ne_ok hok
  · rw [hr] at hok ⊢
    exact failureResponse_legal hok hst
  · rw [hr]
    exact lengthError_legal .form64
  · rw [hr]
    exact lengthError_legal .form32

/-- So does every frame, one with an opcode of no operation included (R66). -/
theorem responseOfDecoded_legal (d : Decoded) : (responseOfDecoded d).Legal := by
  cases d with
  | instr i => exact responseOf_legal i
  | illegalOp op => exact failureResponse_legal (st := .illegalOp) (by decide) (by decide)

/-! ### What a step can do -/

/-- A step answers the oldest request, or changes nothing when none is in flight (R204, log entry 3). -/
theorem step_cases (s : State) :
    (∃ q rest, s.queue = q :: rest ∧
      step s = .next { queue := rest, responses := s.responses ++ [responseOfDecoded (decode q)] }) ∨
    (s.queue = [] ∧ step s = .next s) := by
  cases hq : s.queue with
  | nil => exact .inr ⟨rfl, step_of_queue_nil hq⟩
  | cons q rest => exact .inl ⟨q, rest, rfl, step_of_queue_cons hq⟩

/-- Settles O46: an answered request leaves the queue, and its response is one the block may give. -/
theorem stepKeepsInvariant : Obligations.StepKeepsInvariant := by
  rintro s t ⟨hqueue, hlegal⟩ hstep
  obtain ⟨q, rest, hq, hs⟩ | ⟨-, hs⟩ := step_cases s <;> cases hs.symm.trans hstep
  · rw [hq, List.length_cons] at hqueue
    refine ⟨Nat.le_of_succ_le hqueue, fun r hr => ?_⟩
    obtain hr | rfl := List.mem_append.mp hr |>.imp_right List.mem_singleton.mp
    · exact hlegal r hr
    · exact responseOfDecoded_legal _
  · exact ⟨hqueue, hlegal⟩

/-- Every step answers a next state (R208). -/
theorem exists_step_eq_next (s : State) : ∃ t, step s = .next t := by
  obtain ⟨q, rest, -, hs⟩ | ⟨-, hs⟩ := step_cases s <;> exact ⟨_, hs⟩

/-- Settles O45: by induction on the number of steps, the state varying. -/
theorem everyRunIsSafe : Obligations.EveryRunIsSafe := by
  intro s k
  induction k generalizing s with
  | zero => trivial
  | succ k ih =>
    obtain ⟨t, ht⟩ := exists_step_eq_next s
    exact ⟨t, ht, ih t⟩

/-- The block is at rest exactly in its reset state (R200, R207). -/
theorem atRest_iff_eq_reset (s : State) : s.AtRest ↔ s = State.reset := by
  constructor
  · obtain ⟨queue, responses⟩ := s
    rintro ⟨hq, hr⟩
    cases hq
    cases hr
    rfl
  · rintro rfl
    exact ⟨State.reset_queue, State.reset_responses⟩

/-- Settles O40: the step takes no request from an empty queue, and the reset state is the one with two empty ports. -/
theorem stepAtRestChangesNothing : Obligations.StepAtRestChangesNothing := fun s =>
  ⟨step_of_queue_nil, atRest_iff_eq_reset s⟩

/-- Settles O44: an operation ends in the state with its response given. -/
theorem operationFrame : Obligations.OperationFrame := by
  intro i s t h
  cases (exec_eq i s).symm.trans h
  exact ⟨State.give_queue .., ⟨responseOf i, State.give_responses ..⟩, fun _ => rfl⟩

/-! ### The host's actions -/

/-- Settles O47: both ports are empty. -/
theorem invariantAtReset : Obligations.InvariantAtReset :=
  ⟨Nat.zero_le _, fun _ hr => absurd hr List.not_mem_nil⟩

/-- A request is accepted below the depth, behind those in flight (R28). -/
theorem present_of_lt {s : State} (q : RequestFrame) (h : s.queue.length < Config.qdepth) :
    s.present q = some { s with queue := s.queue ++ [q] } := if_pos h

/-- A request is not accepted at the depth (R28, log entry 1). -/
theorem present_of_le {s : State} (q : RequestFrame) (h : Config.qdepth ≤ s.queue.length) : s.present q = none :=
  if_neg (Nat.not_lt.mpr h)

/-- Settles O51: the depth is one more than a natural number, and acceptance is the test against it. -/
theorem presentAcceptsBelowDepth : Obligations.PresentAcceptsBelowDepth :=
  ⟨Nat.le_add_left 1 _, fun _ q => ⟨present_of_lt q, present_of_le q⟩⟩

/-- Presenting keeps the invariant: a request is accepted only below the depth. -/
theorem present_keeps_inv {s t : State} {q : RequestFrame} (hs : s.Inv) (h : s.present q = some t) : t.Inv := by
  obtain ⟨-, hlegal⟩ := hs
  obtain hlt | hge := Nat.lt_or_ge s.queue.length Config.qdepth
  · cases (present_of_lt q hlt).symm.trans h
    refine ⟨?_, hlegal⟩
    rw [List.length_append]
    exact hlt
  · cases (present_of_le q hge).symm.trans h

/-- Taking a response keeps the invariant: the responses left stood on the port before. -/
theorem takeResponse_keeps_inv {s t : State} {r : Response} (hs : s.Inv) (h : s.takeResponse = some (r, t)) :
    t.Inv := by
  obtain ⟨queue, responses⟩ := s
  obtain ⟨hqueue, hlegal⟩ := hs
  cases responses with
  | nil => cases h
  | cons r rest =>
    cases h
    exact ⟨hqueue, fun r' hr' => hlegal r' (List.mem_cons_of_mem r hr')⟩

/-- Settles O48: one lemma for each action. -/
theorem hostKeepsInvariant : Obligations.HostKeepsInvariant := fun _ hs =>
  ⟨fun _ _ => present_keeps_inv hs, fun _ _ => takeResponse_keeps_inv hs, invariantAtReset⟩

end Sys2Proof.Machine
end

section
/-! PROOFS. The inverse alphabets range by range (30_encoding.md R77, R79). -/

namespace Sys2Proof.Machine

open Sys2Proof

/-- The ranges of `INV64` do not meet (R77). -/
theorem inv64_ranges (c : Cell) :
    (0x41 ≤ c.toNat → c.toNat ≤ 0x5A → inv64 c = some (BitVec.ofNat 6 (c.toNat - 0x41))) ∧
    (0x61 ≤ c.toNat → c.toNat ≤ 0x7A → inv64 c = some (BitVec.ofNat 6 (c.toNat - 0x61 + 26))) ∧
    (0x30 ≤ c.toNat → c.toNat ≤ 0x39 → inv64 c = some (BitVec.ofNat 6 (c.toNat - 0x30 + 52))) := by
  refine ⟨fun hlo hhi => ?_, fun hlo hhi => ?_, fun hlo hhi => ?_⟩
  · rw [inv64, if_pos (by omega)]
  · rw [inv64, if_neg (by omega), if_pos (by omega)]
  · rw [inv64, if_neg (by omega), if_neg (by omega), if_pos (by omega)]

/-- No range of `INV64` reaches 0x80 (R77). -/
theorem inv64_of_high {c : Cell} (h : 0x80 ≤ c.toNat) : inv64 c = none := by
  rw [inv64, if_neg (by omega), if_neg (by omega), if_neg (by omega), if_neg (by omega), if_neg (by omega)]

/-- The ranges of `INV32` do not meet (R79). -/
theorem inv32_ranges (c : Cell) :
    (0x41 ≤ c.toNat → c.toNat ≤ 0x5A → inv32 c = some (BitVec.ofNat 5 (c.toNat - 0x41))) ∧
    (0x32 ≤ c.toNat → c.toNat ≤ 0x37 → inv32 c = some (BitVec.ofNat 5 (c.toNat - 0x32 + 26))) := by
  refine ⟨fun hlo hhi => ?_, fun hlo hhi => ?_⟩
  · rw [inv32, if_pos (by omega)]
  · rw [inv32, if_neg (by omega), if_pos (by omega)]

/-- No range of `INV32` reaches behind 0x5A (R79). -/
theorem inv32_of_high {c : Cell} (h : 0x5A < c.toNat) : inv32 c = none := by
  rw [inv32, if_neg (by omega), if_neg (by omega)]

set_option maxRecDepth 8000 in
theorem inv64_invalid_count :
    ((List.range 256).filter fun n => (inv64 (BitVec.ofNat 8 n)).isNone).length = 192 := by decide

set_option maxRecDepth 8000 in
theorem inv32_invalid_count :
    ((List.range 256).filter fun n => (inv32 (BitVec.ofNat 8 n)).isNone).length = 224 := by decide

/-- Settles O17: the ranges by the tests of `INV64` in their order, the inverse laws by those of the alphabet. -/
theorem inverse64IsExact : Obligations.Inverse64IsExact :=
  ⟨inv64_ranges, by decide, by decide, inv_alpha .form64, alpha_of_inv64, inv64_invalid_count, by decide,
    fun _ => inv64_of_high⟩

/-- Settles O18: the ranges by the tests of `INV32` in their order, the inverse laws by those of the alphabet. -/
theorem inverse32IsExact : Obligations.Inverse32IsExact :=
  ⟨inv32_ranges, inv_alpha .form32, alpha_of_inv32, inv32_invalid_count, by decide,
    fun _ hlo _ => inv32_of_high (by omega), fun _ h => inv32_of_high (by omega)⟩

end Sys2Proof.Machine
end

section
/-! PROOFS. Packing by shifts, and packing and unpacking as inverses (40_pack_unpack.md R101, R104). -/

namespace Sys2Proof.Machine

open Sys2Proof

/-! ### Packing by shifts -/

/-- The low bits after an arithmetic right shift are a slice of the value, as after a logical one, as long as the slice
lies in the value: the copies of the sign bit stand above it (R101). -/
theorem setWidth_sshiftRight_eq_extractLsb' {n s p : Nat} (x : BitVec n) (h : s + p ≤ n) :
    (x.sshiftRight s).setWidth p = x.extractLsb' s p := by
  apply BitVec.eq_of_getLsbD_eq
  intro i hi
  have hin : s + i < n := by omega
  have hnot : ¬ n ≤ i := by omega
  simp [BitVec.getLsbD_sshiftRight, hi, hin, hnot]

/-- Settles O11: byte `i` of a word is bits `63-8*i` to `56-8*i`, which lie in the word, so either shift gives them. -/
theorem packByEitherShift : Obligations.PackByEitherShift := by
  intro hi lo i hlt
  have hin : 56 - 8 * i + 8 ≤ 64 := by omega
  rw [BitVec.setWidth_ushiftRight_eq_extractLsb, BitVec.setWidth_ushiftRight_eq_extractLsb,
    setWidth_sshiftRight_eq_extractLsb' _ hin, setWidth_sshiftRight_eq_extractLsb' _ hin]
  have hhi := pack_getElem?_hi hi lo hlt
  have hlo := pack_getElem?_lo hi lo hlt
  exact ⟨hhi, hhi, hlo, hlo⟩

/-! ### Packing and unpacking -/

/-- The halves of `V = hi ‖ lo` are the words (R102). -/
theorem unpack_pack (hi lo : Word) : unpack (pack hi lo) = (hi, lo) := by
  rw [pack_eq_splitChunks, unpack_splitChunks, BitVec.extractLsb'_append_eq_left, BitVec.extractLsb'_append_eq_right]

/-- The bytes of the words read from a buffer are its first and its last eight cells (R13). -/
theorem pack_unpack {B : List Byte} (hB : B.length = 16) : pack (unpack B).1 (unpack B).2 = B := by
  have hhi : splitChunks 8 8 (unpack B).1 = (B.drop 0).take 8 := splitChunks_memRead B 0 8 (by omega)
  have hlo : splitChunks 8 8 (unpack B).2 = (B.drop 8).take 8 := splitChunks_memRead B 8 8 (by omega)
  have hall : (B.drop 8).take 8 = B.drop 8 := List.take_of_length_le (by rw [List.length_drop]; omega)
  rw [pack_eq, hhi, hlo, hall, List.drop_zero, List.take_append_drop]

/-- Settles O13: the two inverse laws. -/
theorem packUnpackInverse : Obligations.PackUnpackInverse := ⟨unpack_pack, fun _ => pack_unpack⟩

end Sys2Proof.Machine
end

section
/-! PROOFS. The laws of the built-in codec (41_codec.md R111 to R113, R128 and its section 5), and canonical texts
(30_encoding.md R83). -/

namespace Sys2Proof.Machine

open Sys2Proof

/-! ### Texts over the alphabet -/

theorem inAlphabet_map_alpha (f : Form) (ds : List (BitVec f.width)) : InAlphabet f (ds.map (alpha f)) := by
  intro c hc
  obtain ⟨d, -, rfl⟩ := List.mem_map.mp hc
  simp [inv_alpha]

theorem inAlphabet_enc (f : Form) (B : List Byte) : InAlphabet f (enc f B) := inAlphabet_map_alpha f _

/-- `DEC` rejects exactly the texts that are not over the alphabet (R124, R128). -/
theorem dec_eq_badChar_iff {f : Form} {T : List Cell} : dec f T = .badChar ↔ ¬ InAlphabet f T := by
  rw [dec_eq, ← textDigits_eq_none_iff_not_inAlphabet]
  cases textDigits f T <;> simp

/-- What `DEC` does not reject decodes to 16 bytes (R128). -/
theorem length_of_dec_eq_bytes {f : Form} {T : List Cell} {b : List Byte} (h : dec f T = .bytes b) :
    b.length = 16 := by
  rw [dec_eq] at h
  cases hds : textDigits f T with
  | none =>
    rw [hds] at h
    cases h
  | some ds =>
    rw [hds] at h
    cases h
    exact digitBytes_length f ds

/-- Settles O22: one lemma for each of the two answers. -/
theorem decodeRejectsOrGivesSixteenBytes : Obligations.DecodeRejectsOrGivesSixteenBytes := fun _ _ _ =>
  ⟨dec_eq_badChar_iff, fun _ => length_of_dec_eq_bytes⟩

/-! ### Canonical texts -/

/-- A canonical text has full length and is over the alphabet (R83). -/
theorem length_and_inAlphabet_of_canonical {f : Form} {T : List Cell} (h : canonical f T = true) :
    T.length = f.len ∧ InAlphabet f T := by
  rw [canonical, Bool.and_eq_true] at h
  obtain ⟨hlen, hds⟩ := h
  refine ⟨beq_iff_eq.mp hlen, ?_⟩
  by_contra hout
  rw [textDigits_eq_none_iff_not_inAlphabet.mpr hout] at hds
  cases hds

/-- A text written with `LEN(f)` digits is canonical exactly when the fill bits of the last digit are zero (R83). -/
theorem canonical_iff_last_digit {f : Form} {ds : List (BitVec f.width)} {d : BitVec f.width}
    (hlen : ds.length + 1 = f.len) :
    canonical f ((ds ++ [d]).map (alpha f)) = true ↔ d.extractLsb' 0 f.fill = 0#f.fill := by
  have hall : (ds ++ [d]).length = f.len := by simpa using hlen
  rw [canonical_map_alpha hall, fillBits_eq_of_getLast? f _ hall List.getLast?_concat, beq_iff_eq]

/-- A digit whose fill bits are zero is not changed by clearing them (R83). -/
theorem clearFill_eq_self {f : Form} {d : BitVec f.width} (h : d.extractLsb' 0 f.fill = 0#f.fill) :
    clearFill f d = d := by
  apply BitVec.eq_of_getLsbD_eq
  intro i _
  rw [clearFill_getLsbD]
  by_cases hi : i < f.fill
  · have hbit : (d.extractLsb' 0 f.fill).getLsbD i = (0#f.fill).getLsbD i := by rw [h]
    simpa [hi] using hbit.symm
  · simp [hi]

/-- A canonical text decodes to 16 bytes that encode to it (41_codec.md section 5). -/
theorem exists_bytes_of_canonical {f : Form} {T : List Cell} (h : canonical f T = true) :
    ∃ b, dec f T = .bytes b ∧ enc f b = T := by
  obtain ⟨hlenT, hin⟩ := length_and_inAlphabet_of_canonical h
  obtain ⟨ds, d, rfl, hlen⟩ := exists_digits_of_inAlphabet hlenT hin
  refine ⟨digitBytes f (ds ++ [d]), dec_map_alpha f _, ?_⟩
  rw [enc, digits_digitBytes f ds d hlen, clearFill_eq_self ((canonical_iff_last_digit hlen).mp h)]

/-- Two buffers with one encoding are what it decodes to (41_codec.md section 5). -/
theorem enc_injective {f : Form} {B B' : List Byte} (hB : B.length = 16) (hB' : B'.length = 16)
    (h : enc f B = enc f B') : B = B' := by
  have hdec : DecResult.bytes B = .bytes B' := by rw [← dec_enc (f := f) hB, ← dec_enc (f := f) hB', h]
  exact DecResult.bytes.inj hdec

/-- Settles O23: decoding undoes encoding, and encoding undoes the decoding of a canonical text. -/
theorem builtinCodecReversible : Obligations.BuiltinCodecReversible := fun f =>
  ⟨fun B hB => ⟨dec_enc hB, inAlphabet_enc f B, canonical_enc f B⟩, fun _ => exists_bytes_of_canonical,
    fun _ _ => enc_injective⟩

/-- The encodings of two pairs are equal only when the pairs are (R142). -/
theorem enc_pack_injective {f : Form} {hi lo hi' lo' : Word} (h : enc f (pack hi lo) = enc f (pack hi' lo')) :
    (hi, lo) = (hi', lo') := by
  rw [← unpack_pack hi lo, ← unpack_pack hi' lo', enc_injective (pack_length hi lo) (pack_length hi' lo') h]

/-- A text is canonical exactly when it is the compact text of one pair of words (R83). -/
theorem canonical_iff_existsUnique_compact (f : Form) (T : List Cell) :
    canonical f T = true ↔ ∃! p : Word × Word, (compact f p.1 p.2).text.take f.len = T := by
  simp only [compact_text_take]
  constructor
  · intro h
    obtain ⟨b, hdec, rfl⟩ := exists_bytes_of_canonical h
    have hb := pack_unpack (length_of_dec_eq_bytes hdec)
    refine ⟨unpack b, congrArg (enc f) hb, fun p hp => enc_pack_injective (f := f) ?_⟩
    exact hp.trans (congrArg (enc f) hb.symm)
  · rintro ⟨p, rfl, -⟩
    exact canonical_enc f _

/-- When `cs` are the characters of the digits with fill bits zero, the canonical texts are those of full length over
the alphabet that end in one of `cs` (R83). -/
theorem canonical_iff_last_cell {f : Form} {cs : List Cell}
    (hcs : ∀ d : BitVec f.width, alpha f d ∈ cs ↔ d.extractLsb' 0 f.fill = 0#f.fill) (T : List Cell) :
    canonical f T = true ↔ T.length = f.len ∧ InAlphabet f T ∧ ∃ c ∈ cs, T[f.len - 1]? = some c := by
  have hcell {ds : List (BitVec f.width)} (d : BitVec f.width) (hlen : ds.length + 1 = f.len) :
      ((ds ++ [d]).map (alpha f))[f.len - 1]? = some (alpha f d) := by simp [← hlen]
  constructor
  · intro h
    obtain ⟨hlenT, hin⟩ := length_and_inAlphabet_of_canonical h
    obtain ⟨ds, d, rfl, hlen⟩ := exists_digits_of_inAlphabet hlenT hin
    exact ⟨hlenT, hin, alpha f d, (hcs d).mpr ((canonical_iff_last_digit hlen).mp h), hcell d hlen⟩
  · rintro ⟨hlenT, hin, c, hc, hlast⟩
    obtain ⟨ds, d, rfl, hlen⟩ := exists_digits_of_inAlphabet hlenT hin
    cases (hcell d hlen).symm.trans hlast
    exact (canonical_iff_last_digit hlen).mpr ((hcs d).mp hc)

/-! ### Expanding through a codec -/

/-- An expand routine reads a text of full length as it is, whatever stands behind it in the field (R156). -/
theorem readText_append {f : Form} {T : List Cell} (hT : T.length = f.len) (P : List Cell) :
    readText f (T ++ P) = T := by
  apply List.ext_getElem?
  intro k
  by_cases hk : k < f.len
  · have hkT : k < T.length := by omega
    simp [readText, textCell, hk, hkT, List.getElem?_append_left hkT]
  · rw [List.getElem?_eq_none (by simpa using hk), List.getElem?_eq_none (by omega)]

/-- Sixteen decoded bytes pass the byte-count test, and are answered by their two words (R114, R150). -/
theorem expandThrough_of_decode {c : Codec} {f : Form} {text : List Cell} {b : List Byte}
    (hdec : c.decode (readText f text) = .bytes b) (hb : b.length = 16) :
    expandThrough c f text = wordsResponse (unpack b).1 (unpack b).2 := by
  rw [expandThrough, hdec, finishExpand, if_pos hb]
  rfl

/-- The block's expand routine is the one through the built-in codec (R115). -/
theorem expandThrough_builtinCodec (f : Form) (text : List Cell) :
    expandThrough (builtinCodec f) f text = expand f text := rfl

/-- A text of full length that decodes to 16 bytes is expanded to their two words (R150). -/
theorem expand_of_dec {f : Form} {T : List Cell} {b : List Byte} (hT : T.length = f.len) (hdec : dec f T = .bytes b) :
    expand f T = wordsResponse (unpack b).1 (unpack b).2 := by
  have hread : readText f T = T := by simpa using readText_append hT []
  rw [← expandThrough_builtinCodec]
  exact expandThrough_of_decode (hread.symm ▸ hdec) (length_of_dec_eq_bytes hdec)

/-- Settles O20: a canonical text is the encoding of one pair of words, which is told from its last cell; and a text
over the alphabet and its canonical text decode to the same bytes. -/
theorem canonicalTextsAreCompactTexts : Obligations.CanonicalTextsAreCompactTexts := by
  refine ⟨canonical_iff_existsUnique_compact, canonical_iff_last_cell (f := .form64) (by decide),
    canonical_iff_last_cell (f := .form32) (by decide), fun f T hT hin => ?_⟩
  obtain ⟨hcanon, -, ⟨b, hdec, hdec', -⟩, -⟩ := fillBitsIgnoredOnDecode f T hT hin
  obtain ⟨hT', -⟩ := length_and_inAlphabet_of_canonical hcanon
  exact ⟨hcanon, _, _, expand_of_dec hT hdec, expand_of_dec hT' hdec'⟩

/-- Settles O36: the text expands to the words of the bytes it decodes to, and these bytes encode to the canonical
text. -/
theorem expandThenCompactNormalises : Obligations.ExpandThenCompactNormalises := by
  intro f T hT hin
  obtain ⟨-, -, ⟨b, hdec, -, henc⟩, -⟩ := fillBitsIgnoredOnDecode f T hT hin
  refine ⟨_, _, expand_of_dec hT hdec, ?_⟩
  rw [compact_text_take, pack_unpack (length_of_dec_eq_bytes hdec), henc]

/-! ### The codec contract -/

/-- Settles O27: the byte-count test fails. -/
theorem byteCountOtherThanSixteenIsFormatError : Obligations.ByteCountOtherThanSixteenIsFormatError := by
  intro c f text b hdec hb
  rw [expandThrough, hdec, finishExpand, if_neg hb]
  rfl

/-- Truncating what the built-in mapper returns gives the encoding (R120, R123). -/
theorem trunc_builtinCodec_encode (f : Form) (B : List Byte) : trunc f ((builtinCodec f).encode B) = enc f B :=
  trunc_enc_append f B _

/-- Settles O25: the built-in mapper returns the encoding and its padding, and its decoder is `DEC`. -/
theorem builtinMeetsCodecContract : Obligations.BuiltinMeetsCodecContract := by
  intro f
  refine ⟨fun B _ => ?_, fun B _ p hp => ?_, fun T _ hout => dec_eq_badChar_iff.mpr hout, fun B hB => ?_⟩
  · rw [trunc_builtinCodec_encode]
    refine ⟨enc_length f B, inAlphabet_enc f B, ?_⟩
    rintro rfl
    exact paddedText_length .form64 B
  · exact List.eq_of_mem_replicate (drop_paddedText f B ▸ hp)
  · rw [trunc_builtinCodec_encode]
    exact dec_enc hB

/-- Through any codec that meets the contract, a compact text expands to the pair it was made from (R113). -/
theorem expandThrough_compactThrough {c : Codec} {f : Form} (hc : c.MeetsContract f) (hi lo : Word) :
    expandThrough c f (compactThrough c f hi lo).text = wordsResponse hi lo := by
  have hB := pack_length hi lo
  obtain ⟨hlen, -, -⟩ := hc.encodeData _ hB
  have hdec : c.decode (readText f (compactThrough c f hi lo).text) = .bytes (pack hi lo) := by
    rw [compactThrough, compactResponse_text, readText_append hlen, hc.reversible _ hB]
  rw [expandThrough_of_decode hdec hB, unpack_pack]

/-- The block's compact routine is the one through the built-in codec (R115, R120). -/
theorem compactThrough_builtinCodec (f : Form) (hi lo : Word) :
    compactThrough (builtinCodec f) f hi lo = compact f hi lo := by
  rw [compactThrough, trunc_builtinCodec_encode, compact]

/-- Settles O26: the contract's reversibility, of which the block's routines are the built-in case. -/
theorem anyContractCodecRoundTrips : Obligations.AnyContractCodecRoundTrips :=
  ⟨fun _ _ => expandThrough_compactThrough, compactThrough_builtinCodec, expandThrough_builtinCodec⟩

end Sys2Proof.Machine
end

section
/-! PROOFS. The compact operations' texts (42_compact.md R142), the dispatcher beside the operations it chooses between
(R153), and the round trips (R154). -/

namespace Sys2Proof.Machine

open Sys2Proof

/-! ### The compact operations -/

/-- The response that an operation adds is its own. -/
theorem eq_responseOf_of_exec {i : Instr} {s : State} {r : Response}
    (h : exec i s = .next { s with responses := s.responses ++ [r] }) : r = responseOf i := by
  have hnext := (exec_eq i s).symm.trans h
  simp only [State.give, Host.Outcome.next.injEq, State.mk.injEq, true_and, List.append_cancel_left_eq,
    List.cons.injEq, and_true] at hnext
  exact hnext.symm

/-- The compact texts of two pairs are equal exactly when the pairs are (R142). -/
theorem compact_text_take_eq_iff (f : Form) (hi lo hi' lo' : Word) :
    (compact f hi lo).text.take f.len = (compact f hi' lo').text.take f.len ↔ hi = hi' ∧ lo = lo' := by
  rw [compact_text_take, compact_text_take]
  constructor
  · intro h
    exact Prod.mk.inj (enc_pack_injective h)
  · rintro ⟨rfl, rfl⟩
    rfl

/-- A cell with a digit is neither `PAD` nor `+` nor `/` (R80, R142). -/
theorem notMem_of_inv_ne_none {f : Form} {c : Cell} (h : inv f c ≠ none) : c ∉ [Config.pad, 0x2B#8, 0x2F#8] := by
  have hinvalid : ∀ c ∈ [Config.pad, 0x2B#8, 0x2F#8], inv f c = none := by cases f <;> decide
  exact fun hc => h (hinvalid c hc)

/-- R142 for one form: the length, injectivity, dependence on the operands alone, and the characters. -/
theorem compact_text_properties (f : Form) (hi lo hi' lo' : Word) :
    (compact f hi lo).olen = f.lenByte ∧ ((compact f hi lo).text.take f.len).length = f.len ∧
    ((compact f hi lo).text.take f.len = (compact f hi' lo').text.take f.len ↔ hi = hi' ∧ lo = lo') ∧
    (hi = hi' ∧ lo = lo' → compact f hi lo = compact f hi' lo') ∧
    ∀ c ∈ (compact f hi lo).text.take f.len, inv f c ≠ none ∧ c ∉ [Config.pad, 0x2B#8, 0x2F#8] := by
  refine ⟨rfl, ?_, compact_text_take_eq_iff f hi lo hi' lo', ?_, fun c hc => ?_⟩
  · rw [compact_text_take, enc_length]
  · rintro ⟨rfl, rfl⟩
    rfl
  · have hin : inv f c ≠ none := inAlphabet_enc f _ c (compact_text_take f hi lo ▸ hc)
    exact ⟨hin, notMem_of_inv_ne_none hin⟩

/-- Settles O30: the responses are those of the compact routine at the two forms. -/
theorem compactTextProperties : Obligations.CompactTextProperties := by
  constructor <;> intro hi lo hi' lo' s s' r r' h h'
  · rw [eq_responseOf_of_exec h, eq_responseOf_of_exec h']
    exact compact_text_properties .form64 hi lo hi' lo'
  · rw [eq_responseOf_of_exec h, eq_responseOf_of_exec h']
    exact compact_text_properties .form32 hi lo hi' lo'

/-! ### The dispatcher -/

/-- `EXP64` at its length runs the expand routine of form 64 (R150). -/
theorem responseOf_exp64_len (text : List Cell) : responseOf (.exp64 22#8 text) = expand .form64 text :=
  responseOf_expand64 text _ List.mem_cons_self

/-- `EXP32` at its length runs the expand routine of form 32 (R151). -/
theorem responseOf_exp32_len (text : List Cell) : responseOf (.exp32 26#8 text) = expand .form32 text :=
  responseOf_expand32 text _ List.mem_cons_self

/-- Settles O34: at the length of a form both run its expand routine, and every other length is rejected on length
alone. -/
theorem dispatchEquivalences : Obligations.DispatchEquivalences := by
  refine fun tlen text s => ⟨?_, ?_, fun h22 h26 => ⟨?_, ?_, ?_⟩⟩
  · rintro rfl
    rw [exec_eq, exec_eq, responseOf_exp64_len, responseOf_exp_lenByte .form64]
  · rintro rfl
    rw [exec_eq, exec_eq, responseOf_exp32_len, responseOf_exp_lenByte .form32]
  · exact exec_of_responseOf (responseOf_exp_of_forall_ne text fun | .form64 => h22 | .form32 => h26) s
  · exact exec_of_responseOf (responseOf_exp64_of_ne text h22) s
  · exact exec_of_responseOf (responseOf_exp32_of_ne text h26) s

/-! ### Round trips -/

/-- The expand routine undoes the compact routine of its form, since the built-in codec meets the contract (R154). -/
theorem expand_compact (f : Form) (hi lo : Word) : expand f (compact f hi lo).text = wordsResponse hi lo := by
  rw [← expandThrough_builtinCodec, ← compactThrough_builtinCodec]
  exact expandThrough_compactThrough (builtinMeetsCodecContract f) hi lo

/-- Settles O35: `olen` is the length of the form, so the expand operation of that form and `EXP` run its expand
routine, and the other one fails its length test. -/
theorem roundTrips : Obligations.RoundTrips := by
  intro hi lo s s'
  have h64 := expand_compact .form64 hi lo
  have h32 := expand_compact .form32 hi lo
  refine ⟨⟨compact .form64 hi lo, exec_of_responseOf rfl s, exec_of_responseOf ?_ s', exec_of_responseOf ?_ s',
    exec_of_responseOf ?_ s'⟩, ⟨compact .form32 hi lo, exec_of_responseOf rfl s, exec_of_responseOf ?_ s',
    exec_of_responseOf ?_ s', exec_of_responseOf ?_ s'⟩⟩
  · exact (responseOf_exp64_len _).trans h64
  · exact (responseOf_exp_lenByte .form64 _).trans h64
  · exact responseOf_exp32_of_ne _ (by decide : 22#8 ≠ 26#8)
  · exact (responseOf_exp32_len _).trans h32
  · exact (responseOf_exp_lenByte .form32 _).trans h32
  · exact responseOf_exp64_of_ne _ (by decide : 26#8 ≠ 22#8)

end Sys2Proof.Machine
end

section
/-! PROOFS. The response frame cell by cell (30_encoding.md R61), and the host's side: characters wider than a cell
(R70) and the pseudo-operations (R93). -/

namespace Sys2Proof.Machine

open Sys2Proof

/-! ### The response frame -/

/-- Cell `k` of a text field is bits `[8*k+7 : 8*k]` (R61). -/
theorem bitsToText_getElem? (t : TextBits) {k : Nat} (hk : k < 26) :
    (bitsToText t)[k]? = some (t.extractLsb' (8 * k) 8) := by
  simp [bitsToText, hk]

/-- Cell `k` of a response stands at bits `[159+8*k : 152+8*k]` of its frame (R61). -/
theorem text_getElem?_eq_extract_toFrame {r : Response} (h : r.text.length = 26) {k : Nat} (hk : k < 26) :
    r.text[k]? = some (r.toFrame.extractLsb' (152 + 8 * k) 8) := by
  have hin : 8 * k + 8 ≤ 208 := by omega
  rw [← extractLsb'_extractLsb' _ hin, toFrame_text, ← bitsToText_getElem? _ hk, bitsToText_textToBits _ h]

/-- Settles O8: the fields and the cells of the frame. -/
theorem responseFrameLayout : Obligations.ResponseFrameLayout := fun r h =>
  ⟨toFrame_status r, toFrame_olen r, toFrame_elen r, toFrame_lo r, toFrame_hi r,
    fun _ hk => text_getElem?_eq_extract_toFrame h hk⟩

/-! ### Characters wider than a cell -/

/-- A wide character is presented as a cell outside both alphabets (R70). -/
theorem inv_hostCell_of_wide (f : Form) {code : Nat} (h : 256 ≤ code) : inv f (hostCell code) = none := by
  rw [hostCell, if_neg (Nat.not_lt.mpr h)]
  cases f <;> decide

/-- A presented text of a form's length is seen with that length, and a wide character of it stands in its cell
(R69, R70). -/
theorem presented_wide_cell {chars : List Nat} {tlen : Byte} {text : List Cell} (hp : Presents chars tlen text)
    {f : Form} (hlen : chars.length = f.len) {k code : Nat} (hk : chars[k]? = some code) :
    tlen = f.lenByte ∧ k < f.len ∧ text[k]? = some (hostCell code) := by
  obtain ⟨htlen, -, hcells⟩ := hp
  obtain ⟨hlt, rfl⟩ := List.getElem?_eq_some_iff.mp hk
  have hkf : k < f.len := hlen ▸ hlt
  have hfield : f.len ≤ Config.textCells := by cases f <;> decide
  exact ⟨htlen.trans ((hostTlen_eq_lenByte_iff chars f).mpr hlen), hkf, hcells k hlt (hkf.trans_le hfield)⟩

/-- Settles O53: the wide character is a cell that the expand routine reads and rejects. -/
theorem wideCharactersRejected : Obligations.WideCharactersRejected := by
  intro chars tlen text s k code hp hk hwide
  constructor
  · intro hlen i hi
    obtain ⟨rfl, hkf, hcell⟩ := presented_wide_cell hp (f := .form64) hlen hk
    exact exec_of_inv_eq_none (responseOf_expand64 text i hi) hkf hcell (inv_hostCell_of_wide .form64 hwide) s
  · intro hlen i hi
    obtain ⟨rfl, hkf, hcell⟩ := presented_wide_cell hp (f := .form32) hlen hk
    exact exec_of_inv_eq_none (responseOf_expand32 text i hi) hkf hcell (inv_hostCell_of_wide .form32 hwide) s

/-! ### The pseudo-operations -/

/-- The host reads an accepted text in canonical shape by its digits, and any other accepted text as its parser does
(R93). -/
theorem hostParse_eq (t : List Char) :
    hostParse t =
      if Config.uuidParserAccepts t then some ((readCanonical t).getD (Config.uuidParserOther t)) else none := by
  rw [hostParse]
  cases readCanonical t <;> rfl

/-- Settles O56: the expansion is by the parser's answer, and the two texts are read digit by digit. -/
theorem pseudoOperationsExpand : Obligations.PseudoOperationsExpand := by
  refine ⟨fun hi lo => ⟨rfl, rfl⟩, fun t => ?_, by decide, by decide⟩
  simp only [PseudoOp.expand, hostParse_eq]
  cases Config.uuidParserAccepts t <;> exact ⟨rfl, rfl⟩

end Sys2Proof.Machine
end
